-- ==== Sys2Proof/Word.lean ====
section
/-! DEFINITION. The word types of the engine and their plainest reading (R7, R8). -/

namespace Sys2Proof

/-- A byte: 8 bits (R7), bit 0 the least significant (R8). -/
abbrev Byte := BitVec 8

/-- A command word: 10 bits (R7, R42). -/
abbrev CmdWord := BitVec 10

end Sys2Proof
end

