-- ==== Sys2Proof/Config.lean ====
section
/-! DEFINITION. What is fixed for one machine (the build-time parameters of R5 and R6) and the free values: the
draws of the input ports and the one bus-electrical choice the spec leaves open (I3, I5, I8). No constant here has
a body, so no proof can see a value of one. -/

namespace Sys2Proof

/-- The two build-time parameters: `DELAY` (R5) and `WACK_RELEASE` (R6). The shared operations take them as an
argument; the machine itself runs with `Config.params`. -/
structure Params where
  /-- `DELAY`: how many edges one `W` lasts. -/
  delay : Nat
  /-- `WACK_RELEASE`: whether WRITE releases SDA in its acknowledge slot. -/
  wackRelease : Bool
  deriving DecidableEq, Repr

/-- What a pair of cycles can show on the bus (R41). -/
inductive BusCondition where
  /-- Data falls while the clock is high. -/
  | start
  /-- Data rises while the clock is high. -/
  | stop
  deriving DecidableEq, Repr

/-- `DELAY - 1`. The parameter is OPEN (R5, D4): any positive integer, and 0 is refused, so what is left open is
its excess over 1 (log entry 3). -/
opaque Config.extraDelay : Nat

/-- Whether the build leaves SDA as the last data bit set it in the WRITE acknowledge slot: the negation of
`WACK_RELEASE`, which is OPEN (R6, D11; log entry 4). -/
opaque Config.wackKeepsData : Bool

/-- The parameters of the machine. -/
def Config.params : Params :=
  { delay := Config.extraDelay + 1, wackRelease := !Config.wackKeepsData }

/-- Free draw of the input port `rst` in a cycle the input script does not reach (log entry 1). -/
opaque Config.freeRst : Nat → Bool

/-- Free draw of the input port `cmd_valid` in a cycle the input script does not reach (log entry 1). -/
opaque Config.freeCmdValid : Nat → Bool

/-- Free draw of the input port `cmd` in a cycle the input script does not reach (log entry 1). -/
opaque Config.freeCmd : Nat → CmdWord

/-- Free draw: whether some slave pulls SDA low in a cycle the input script does not reach (R19, I3; log entry 1). -/
opaque Config.freeSlaveLow : Nat → Bool

/-- Free draw: what the bus sees when reset releases both driven lines at one edge (R89, I8; log entry 8). -/
opaque Config.freeBothReleased : Nat → Option BusCondition

end Sys2Proof
end

