-- ==== Sys2Proof/Machine/State.lean ====
section
/-! DEFINITION. The state of the engine (R15), the reasons a step can stop, and the state after reset (R29). -/

namespace Sys2Proof.Machine

/-- The values of the input ports in one cycle (R14); `clk` is the step itself. -/
structure PortIn where
  /-- Synchronous reset, active high. -/
  rst : Bool
  /-- The issuer offers the word on `cmd` this cycle. -/
  cmdValid : Bool
  /-- The command word. -/
  cmd : CmdWord
  /-- Level of the SDA line: true is high (R9, R19). -/
  sdaIn : Bool
  deriving DecidableEq, Repr

/-- The engine state of R15, and two fields of the model's own (`inputs` and `cycle`, log entry 1). -/
@[ext]
structure State where
  /-- A command is running (R20). -/
  busy : Bool
  /-- A command completed at the last edge (R21). -/
  done : Bool
  /-- The byte of the most recent READ that completed (R22). -/
  rdata : Byte
  /-- The read accumulator (R23). -/
  acc : Byte
  /-- The latched command word (R24). -/
  lcmd : CmdWord
  /-- Index of the current micro-op in the running command's sequence (R26). -/
  upc : BitVec 6
  /-- Cycles already spent in the current `W` (R25). Its width is the implementation's (R7; log entry 5). -/
  wcnt : Nat
  /-- SCL is driven low (R16). -/
  sclOe : Bool
  /-- SDA is driven low (R16). -/
  sdaOe : Bool
  /-- The model's own: the input ports' values at the coming edges, the next edge's first. -/
  inputs : List PortIn
  /-- The model's own: how many steps have run; indexes the free draws once `inputs` is empty. -/
  cycle : Nat
  deriving DecidableEq, Repr

/-- Why the machine stops. The engine itself raises no fault (R77): both constructors mark a broken premise. -/
inductive Fault where
  /-- Raised by `step` alone, at an edge without reset: SDA reads high in a cycle where the engine drives it low, so
  the environment broke the wired-AND law (R19); I4's treatment is `fault` (log entry 2). Safe: a claim about such
  a run is lost. -/
  | wiredAndBroken
  /-- Raised by a command's meaning: `upc` indexes no micro-op of the command. The spec gives such a state no effect,
  and no run from reset reaches one (R26; log entry 7). Safe. -/
  | upcOutOfRange
  deriving DecidableEq, Repr

/-- Why there is no meaning. -/
inductive Refusal where
  /-- Raised by an arm of `exec` for a command that has no meaning yet; no arm does. Safe. -/
  | notModelled (mnemonic : String)
  deriving DecidableEq, Repr

/-- The state after a reset edge (R29); the model's own fields are empty and 0 (log entry 1). -/
def State.reset : State :=
  { busy := false, done := false, rdata := 0x00#8, acc := 0x00#8, lcmd := 0b0000000000#10, upc := 0#6, wcnt := 0,
    sclOe := false, sdaOe := false, inputs := [], cycle := 0 }

end Sys2Proof.Machine
end

