-- ==== Sys2Proof/Machine/Operands.lean ====
section
/-! DEFINITION. The operand forms: the input ports of a cycle (R10, R14, R19), the bits of WRITE's byte (R31, R44),
and the byte a READ assembles (R74, R76). -/

namespace Sys2Proof.Machine

/-- What the input ports carry `k` edges from now: the script's entry, or free draws where the script has ended.
A drawn SDA level is that of the line as the slaves leave it: low exactly where one pulls it (R19). -/
def State.scheduled (s : State) (k : Nat) : PortIn :=
  match s.inputs[k]? with
  | some p => p
  | none =>
    { rst := Config.freeRst (s.cycle + k), cmdValid := Config.freeCmdValid (s.cycle + k),
      cmd := Config.freeCmd (s.cycle + k), sdaIn := !Config.freeSlaveLow (s.cycle + k) }

/-- `in` of the coming edge (R10). A scripted entry is read as it stands. A drawn one obeys the wired-AND law of
R19: while the engine drives SDA low, the line is low. -/
def State.input (s : State) : PortIn :=
  match s.inputs with
  | p :: _ => p
  | [] => { s.scheduled 0 with sdaIn := !s.sdaOe && (s.scheduled 0).sdaIn }

/-- Whether the wired-AND law of R19 holds in this cycle. -/
def State.lawful (s : State) : Bool := !(s.sdaOe && s.input.sdaIn)

/-- Bit cell `j` of a byte transfer carries bit `7 - j`: most significant first (R31, R68). -/
def cellBit (b : Byte) (j : Nat) : Bool := b.getLsbD (7 - j)

/-- `((acc << 1) | zext_8(bit))[7:0]` (R74). -/
def shiftIn (acc : Byte) (bit : Bool) : Byte := (acc <<< 1) ||| (BitVec.ofBool bit).setWidth 8

/-- R76: the byte whose bit `7 - j` is the sample `f j` of cell `j`, on top of an accumulator's earlier content. -/
def assembleByte (acc : Byte) (f : Nat → Bool) : Byte := (List.range 8).foldl (fun a j => shiftIn a (f j)) acc

end Sys2Proof.Machine
end

