-- ==== Sys2Proof/Machine/Flags.lean ====
section
/-! DEFINITION. The status flags `busy` and `done` (R20, R21, R27: the engine has no other), and `cmd_ready`. -/

namespace Sys2Proof.Machine

/-- `done <- 0` at every edge that completes no command (R58). -/
def State.clearDone (s : State) : State := { s with done := false }

/-- R57: a completing command ends `busy`, raises `done`, and leaves `upc` and `wcnt` 0. -/
def State.complete (s : State) : State := { s with busy := false, done := true, upc := 0#6, wcnt := 0 }

/-- `cmd_ready = (not busy) and (not rst)`, combinational (R14, R54). -/
def State.cmdReady (s : State) : Bool := !s.busy && !s.input.rst

end Sys2Proof.Machine
end

