-- ==== Sys2Proof/Machine/Ops.lean ====
section
/-! DEFINITION. The named operations every command shares: the micro-ops and what each does at an edge (R52, R56), one
edge of a running command (R56, R57), and the edges that run no micro-op: reset (R88), acceptance (R53), idling (R87).
The engine takes no exception and returns from none (R77, R81); reset is the only event that interrupts a command. -/

namespace Sys2Proof.Machine

/-- The micro-ops of R52. -/
inductive MicroOp where
  /-- drive clock low -/
  | CL
  /-- release clock high -/
  | CR
  /-- drive data low -/
  | DL
  /-- release data high -/
  | DR
  /-- set data to the bit's level -/
  | DS (x : Bool)
  /-- delay -/
  | W
  /-- sample SDA into the accumulator -/
  | SMP
  deriving DecidableEq, Repr

/-- `scl_oe <- v` (R52). -/
def State.setScl (s : State) (v : Bool) : State := { s with sclOe := v }

/-- `sda_oe <- v` (R52). -/
def State.setSda (s : State) (v : Bool) : State := { s with sdaOe := v }

/-- `SMP`: the level of SDA in the cycle before the edge goes into the accumulator (R52, R74). -/
def State.sampleSda (s : State) : State := { s with acc := shiftIn s.acc s.input.sdaIn }

/-- `wcnt <- n` (R56). -/
def State.setWcnt (s : State) (n : Nat) : State := { s with wcnt := n }

/-- `upc <- upc + 1` (R56). -/
def State.advance (s : State) : State := { s with upc := s.upc + 1#6 }

/-- R75: a completing READ returns the accumulator. -/
def State.returnByte (s : State) : State := { s with rdata := s.acc }

/-- Whether the micro-op finishes at this edge: all do, but for a `W` that has edges left, `wcnt < DELAY - 1` (R56). -/
def MicroOp.finishes (P : Params) (s : State) : MicroOp → Bool
  | .W => !decide (s.wcnt + 1 < P.delay)
  | .CL => true
  | .CR => true
  | .DL => true
  | .DR => true
  | .DS _ => true
  | .SMP => true

/-- What one edge of the micro-op does to its line, to the accumulator or to the wait counter (R52, R56). -/
def MicroOp.effect (P : Params) (s : State) : MicroOp → State
  | .CL => s.setScl true
  | .CR => s.setScl false
  | .DL => s.setSda true
  | .DR => s.setSda false
  | .DS x => s.setSda (!x)
  | .SMP => s.sampleSda
  | .W => if s.wcnt + 1 < P.delay then s.setWcnt (s.wcnt + 1) else s.setWcnt 0

/-- One edge of a running command whose micro-op sequence is `prog` (R56): the micro-op at `upc` runs, `upc` moves on
when it finishes, and the command completes with its last micro-op (R57). `atEnd` is what completion does beyond
the flags. No micro-op stands at an index past the sequence; such a state stops by name. -/
def runCommand (P : Params) (prog : List MicroOp) (atEnd : State → State) (s : State) :
    Host.Outcome State Fault Refusal :=
  match prog.drop s.upc.toNat with
  | [] => .fault .upcOutOfRange
  | u :: rest =>
    .next
      (if u.finishes P s then
        if rest.isEmpty then atEnd (u.effect P s.clearDone).complete else (u.effect P s.clearDone).advance
      else u.effect P s.clearDone)

/-- R53: acceptance latches the offered word; no micro-op runs at this edge. -/
def State.accept (s : State) : State :=
  { s with lcmd := s.input.cmd, busy := true, upc := 0#6, wcnt := 0, done := false }

/-- R88: a reset edge sets every element of the engine to its reset value; the inputs to come are not the engine's. -/
def State.resetEdge (s : State) : State := { State.reset with inputs := s.inputs, cycle := s.cycle }

/-- The cycle passes: the outside world's next values stand at the ports (log entry 1). -/
def State.tick (s : State) : State := { s with inputs := s.inputs.tail, cycle := s.cycle + 1 }

/-- The same outcome, its next state changed by `f`. -/
def mapNext (f : State → State) : Host.Outcome State Fault Refusal → Host.Outcome State Fault Refusal
  | .next s => .next (f s)
  | .fault r => .fault r
  | .refused r => .refused r

end Sys2Proof.Machine
end

