-- ==== Sys2Proof/Machine/BusConditions.lean ====
section
/-! DEFINITION. START and STOP (spec/41_bus_conditions.md): their micro-op sequences and their meanings. A meaning is
what the running command does at one edge (R56). -/

namespace Sys2Proof.Machine

/-- R66. -/
def startProg : List MicroOp := [.CR, .DL, .W]

/-- R67. -/
def stopProg : List MicroOp := [.CL, .DL, .W, .CR, .W, .DR, .W]

/-- One edge of a running START (R66): `acc` and `rdata` are not written. -/
def execStart (s : State) : Host.Outcome State Fault Refusal := runCommand Config.params startProg id s

/-- One edge of a running STOP (R67): `acc` and `rdata` are not written. -/
def execStop (s : State) : Host.Outcome State Fault Refusal := runCommand Config.params stopProg id s

end Sys2Proof.Machine
end

