-- ==== Sys2Proof/Machine/ByteTransfer.lean ====
section
/-! DEFINITION. WRITE, READ_ACK and READ_NACK (spec/42_byte_transfer.md): their micro-op sequences and their meanings.
A meaning is what the running command does at one edge (R56). -/

namespace Sys2Proof.Machine

/-- The bit cell of a WRITE (R68). -/
def writeCell (x : Bool) : List MicroOp := [.CL, .DS x, .W, .CR, .W]

/-- The eight data cells of WRITE b: cell `j` sends `b[7-j]` (R68). -/
def writeCells (b : Byte) : List MicroOp :=
  writeCell (cellBit b 0) ++ writeCell (cellBit b 1) ++ writeCell (cellBit b 2) ++ writeCell (cellBit b 3) ++
  writeCell (cellBit b 4) ++ writeCell (cellBit b 5) ++ writeCell (cellBit b 6) ++ writeCell (cellBit b 7)

/-- The acknowledge slot of a WRITE, by `WACK_RELEASE` (R69). It samples nothing (R70). -/
def writeAckSlot (release : Bool) : List MicroOp :=
  if release then [.CL, .DR, .W, .CR, .W] else [.CL, .W, .CR, .W]

/-- R68, R69. -/
def writeProg (P : Params) (b : Byte) : List MicroOp := writeCells b ++ writeAckSlot P.wackRelease

/-- The bit cell of a READ (R71). -/
def readCell : List MicroOp := [.CL, .W, .CR, .W, .SMP]

/-- The READ body: the prologue and eight sampling cells (R71). -/
def readBody : List MicroOp :=
  [.CL, .DR] ++ readCell ++ readCell ++ readCell ++ readCell ++ readCell ++ readCell ++ readCell ++ readCell

/-- R72: the acknowledge, clock low first (C2, D12). -/
def readAckProg : List MicroOp := readBody ++ [.CL, .DL, .W, .CR, .W]

/-- R73: the not-acknowledge pulse leaves data released. -/
def readNackProg : List MicroOp := readBody ++ [.CL, .W, .CR, .W]

/-- One edge of a running WRITE b (R68 to R70): `acc` and `rdata` are not written. -/
def execWrite (b : Byte) (s : State) : Host.Outcome State Fault Refusal :=
  runCommand Config.params (writeProg Config.params b) id s

/-- One edge of a running READ_NACK (R71, R73); completion returns the byte (R75). -/
def execReadNack (s : State) : Host.Outcome State Fault Refusal :=
  runCommand Config.params readNackProg State.returnByte s

/-- One edge of a running READ_ACK (R71, R72); completion returns the byte (R75). -/
def execReadAck (s : State) : Host.Outcome State Fault Refusal :=
  runCommand Config.params readAckProg State.returnByte s

end Sys2Proof.Machine
end

