-- ==== Sys2Proof/Syntax.lean ====
section
/-! DEFINITION. The commands of the engine, one constructor per row of spec/opcode_table.json (R43). Reserved bits
are no operands: the engine ignores them (R46). -/

namespace Sys2Proof

/-- The commands (R43). -/
inductive Instr where
  /-- `start()`: generate a start condition (R66). -/
  | start
  /-- `stop()`: generate a stop condition (R67). -/
  | stop
  /-- `writeByte(b)`: send one byte, MSB first (R68). -/
  | write (b : Byte)
  /-- `readByte(ack=false)` (R73). -/
  | readNack
  /-- `readByte(ack=true)` (R72). -/
  | readAck
  deriving DecidableEq, Repr

end Sys2Proof
end

