-- ==== Sys2Proof/Machine/Dispatch.lean ====
section
/-! DEFINITION. One edge of a running command, by command. -/

namespace Sys2Proof.Machine

def exec (i : Instr) (s : State) : Host.Outcome State Fault Refusal :=
  match i with
  | .start => Sys2Proof.Machine.execStart s
  | .stop => Sys2Proof.Machine.execStop s
  | .write b => Sys2Proof.Machine.execWrite b s
  | .readNack => Sys2Proof.Machine.execReadNack s
  | .readAck => Sys2Proof.Machine.execReadAck s

end Sys2Proof.Machine
end

