-- ==== Sys2Proof/WellFormed.lean ====
section
/-! DEFINITION. The well-formedness checks: of a build's parameters (R5), of a number offered as a command word
(R42), of a word's reserved bits (R46), of an assembler immediate (R49), and of a command (R44, R47). -/

namespace Sys2Proof

/-- R5: `DELAY >= 1`; a value of 0 is refused. Both values of `WACK_RELEASE` are legal (R6). -/
def Params.wf (P : Params) : Bool := decide (1 ≤ P.delay)

/-- R42: a command is one 10-bit word. -/
def wordFits (w : Nat) : Bool := decide (w < 1024)

/-- The reserved bits of a word (R46), selected by `op` and so by the word itself. -/
def reservedMask (w : CmdWord) : CmdWord :=
  match (w.extractLsb' 8 2).toNat with
  | 0 => 0x0FF#10
  | 1 => 0x0FF#10
  | 2 => 0x000#10
  | _ => 0x0FE#10

/-- R46: software writes reserved bits as 0. The engine runs a word that fails this check all the same. -/
def reservedZero (w : CmdWord) : Bool := w &&& reservedMask w == 0#10

/-- R49: an immediate of WRITE is 0 to 255. -/
def immFits (n : Nat) : Bool := decide (n < 256)

/-- Every command is well formed: the only operand is WRITE's byte, and all 256 values are legal (R44); there is no
illegal command (R47). The bound on the operand is carried by its type. -/
def Instr.wf : Instr → Bool
  | .start => true
  | .stop => true
  | .write b => immFits b.toNat
  | .readNack => true
  | .readAck => true

end Sys2Proof
end

