-- ==== Sys2Proof/Decode.lean ====
section
/-! DEFINITION. Decoding of command words (R42 to R48), the encoder (R49), and the opcode table of R43 as data. -/

namespace Sys2Proof

/-- `op = cmd[9:8]` (R42). -/
def opField (w : CmdWord) : BitVec 2 := w.extractLsb' 8 2

/-- `arg = cmd[7:0]` (R42). -/
def argField (w : CmdWord) : Byte := w.extractLsb' 0 8

/-- READ's operand `ack = cmd[0]` (R45). -/
def ackBit (w : CmdWord) : Bool := w.getLsbD 0

/-- R43: every 10-bit word selects exactly one command. The reserved bits are not read (R46). -/
def decode (w : CmdWord) : Instr :=
  match (opField w).toNat with
  | 0 => .start
  | 1 => .stop
  | 2 => .write (argField w)
  | _ => if ackBit w then .readAck else .readNack

/-- Why a number is no command word. -/
inductive DecodeError where
  /-- It does not fit the 10 bits of the `cmd` port (R42, R48). -/
  | notTenBits
  deriving DecidableEq, Repr

/-- The decoder on any number: a number that fits the port decodes (R47); a wider one is rejected by name. -/
def decodeNat (w : Nat) : Except DecodeError Instr :=
  if wordFits w then .ok (decode (BitVec.ofNat 10 w)) else .error .notTenBits

/-- The canonical word of a command, its reserved bits 0 (R49). -/
def encode : Instr → CmdWord
  | .start => 0x000#10
  | .stop => 0x100#10
  | .write b => 0x200#10 ||| b.setWidth 10
  | .readNack => 0x300#10
  | .readAck => 0x301#10

/-- One row of R43's table, as mask and match. -/
structure OpcodeRow where
  /-- the row's mnemonic -/
  mnemonic : String
  /-- the mask over the word -/
  mask : CmdWord
  /-- the masked word's value -/
  pattern : CmdWord
  deriving DecidableEq, Repr

/-- R43's mask and match values, in the order of spec/opcode_table.json. -/
def opcodeRows : List OpcodeRow :=
  [ { mnemonic := "START", mask := 0x300#10, pattern := 0x000#10 },
    { mnemonic := "STOP", mask := 0x300#10, pattern := 0x100#10 },
    { mnemonic := "WRITE", mask := 0x300#10, pattern := 0x200#10 },
    { mnemonic := "READ_NACK", mask := 0x301#10, pattern := 0x300#10 },
    { mnemonic := "READ_ACK", mask := 0x301#10, pattern := 0x301#10 } ]

/-- Whether a word is an instance of a row: `(cmd & mask) == match` (R43). -/
def OpcodeRow.selects (r : OpcodeRow) (w : CmdWord) : Bool := w &&& r.mask == r.pattern

/-- The row of a command. -/
def Instr.row : Instr → OpcodeRow
  | .start => { mnemonic := "START", mask := 0x300#10, pattern := 0x000#10 }
  | .stop => { mnemonic := "STOP", mask := 0x300#10, pattern := 0x100#10 }
  | .write _ => { mnemonic := "WRITE", mask := 0x300#10, pattern := 0x200#10 }
  | .readNack => { mnemonic := "READ_NACK", mask := 0x301#10, pattern := 0x300#10 }
  | .readAck => { mnemonic := "READ_ACK", mask := 0x301#10, pattern := 0x301#10 }

/-- Whether a command is a READ: `op = 0b11` (R43, R57). -/
def Instr.isRead : Instr → Bool
  | .start => false
  | .stop => false
  | .write _ => false
  | .readNack => true
  | .readAck => true

/-- The command the decoder reads from a table word of `nbits` bits: every bit above them is 0 (log
entry 13). -/
def decodeTableWord (nbits w : Nat) : Option Instr :=
  match decodeNat (w % 2 ^ nbits) with
  | .ok i => some i
  | .error _ => none

end Sys2Proof
end

