-- ==== Sys2Proof/Machine/Fetch.lean ====
section
/-! DEFINITION. Where the running command comes from (the latched word, R24), and how a word is placed there from
outside. The engine fetches nothing from a memory (R26, R40). -/

namespace Sys2Proof.Machine

/-- The running command is the one the latched word selects (R24, R55). -/
def State.running (s : State) : Instr := decode s.lcmd

/-- Input ports at rest: no reset, no offer, SDA high unless the engine drives it low (R19). -/
def restInput (sdaOe : Bool) : PortIn := { rst := false, cmdValid := false, cmd := 0#10, sdaIn := !sdaOe }

/-- `s` right after the acceptance of the word `w` (R53), with the ports at rest in the coming cycle. -/
def State.withLatched (s : State) (w : CmdWord) : State :=
  { s with lcmd := w, busy := true, upc := 0#6, wcnt := 0, done := false,
           inputs := restInput s.sdaOe :: s.inputs.tail }

end Sys2Proof.Machine
end

