-- ==== Sys2Proof/Machine/Edge.lean ====
section
/-! DEFINITION. One rising edge of `clk` (R13, R65), with the priorities of R80. -/

namespace Sys2Proof.Machine

/-- One edge. Reset comes first, whatever else is true (R88). A cycle in which the environment breaks the wired-AND law
discards the run (R19, I4; log entry 2). Otherwise a running command runs one micro-op step, or an offered word is
accepted, or nothing happens but `done <- 0` (R80). -/
def edge (s : State) : Host.Outcome State Fault Refusal :=
  if s.input.rst then .next s.resetEdge.tick
  else if !s.lawful then .fault .wiredAndBroken
  else if s.busy then mapNext State.tick (exec s.running s)
  else if s.input.cmdValid then .next s.accept.tick
  else .next s.clearDone.tick

end Sys2Proof.Machine
end

