-- ==== Sys2Proof/Machine/Step.lean ====
section
/-! DEFINITION. The step: one rising edge of `clk` (log entry 12). -/

namespace Sys2Proof.Machine

/-- One step is one edge (R13, R65). -/
def step (s : State) : Host.Outcome State Fault Refusal := edge s

/-- The word `w` latched as if the edge just past had accepted it, so that the next step runs its first micro-op.
What an acceptance writes and the coming cycle's inputs are all that changes (log entry 6). -/
def State.withFetchWord (s : State) (nbits w : Nat) : State := s.withLatched (BitVec.ofNat 10 (w % 2 ^ nbits))

end Sys2Proof.Machine
end

