-- ==== Sys2Proof/Machine/Assembler.lean ====
section
/-! DEFINITION. The assembler syntax of R49, over lists of characters: one command per line, upper-case mnemonics, an
immediate for WRITE, an optional comment. Where R49 is silent on spelling, log entry 9. -/

namespace Sys2Proof.Machine

/-- Why a line is no command. -/
inductive AsmError where
  /-- There is no mnemonic on the line. -/
  | noCommand
  /-- The mnemonic is none of R49's. -/
  | unknownMnemonic
  /-- WRITE's immediate is missing or is no numeral, or another command has an operand. -/
  | badOperands
  /-- The immediate is over 255. -/
  | immTooLarge
  deriving DecidableEq, Repr

/-- The value of a hexadecimal digit. -/
def hexDigit? (c : Char) : Option Nat :=
  if '0'.toNat ≤ c.toNat ∧ c.toNat ≤ '9'.toNat then some (c.toNat - '0'.toNat)
  else if 'A'.toNat ≤ c.toNat ∧ c.toNat ≤ 'F'.toNat then some (c.toNat - 'A'.toNat + 10)
  else if 'a'.toNat ≤ c.toNat ∧ c.toNat ≤ 'f'.toNat then some (c.toNat - 'a'.toNat + 10)
  else none

/-- The digits of a numeral in base `base`, most significant first, on top of a value read so far. -/
def digits? (base : Nat) (acc : Nat) : List Char → Option Nat
  | [] => some acc
  | c :: cs =>
    match hexDigit? c with
    | some d => if d < base then digits? base (acc * base + d) cs else none
    | none => none

/-- `<imm8>` as a number: hexadecimal after `0x`, else decimal (R49). -/
def numeral? : List Char → Option Nat
  | [] => none
  | ['0', 'x'] => none
  | '0' :: 'x' :: ds => digits? 16 0 ds
  | ds => digits? 10 0 ds

/-- The line up to its comment, which begins with `;` (R49). -/
def stripComment : List Char → List Char
  | [] => []
  | c :: cs => if c = ';' then [] else c :: stripComment cs

/-- The words of a line, separated by blanks; `w` holds the word being read, last character first. -/
def wordsFrom (w : List Char) : List Char → List (List Char)
  | [] => if w.isEmpty then [] else [w.reverse]
  | c :: cs =>
    if c = ' ' ∨ c = '\t' then (if w.isEmpty then [] else [w.reverse]) ++ wordsFrom [] cs
    else wordsFrom (c :: w) cs

/-- The mnemonics of R49. -/
def mnemonicStart : List Char := ['S', 'T', 'A', 'R', 'T']
/-- See `mnemonicStart`. -/
def mnemonicStop : List Char := ['S', 'T', 'O', 'P']
/-- See `mnemonicStart`. -/
def mnemonicWrite : List Char := ['W', 'R', 'I', 'T', 'E']
/-- See `mnemonicStart`. -/
def mnemonicReadAck : List Char := ['R', 'E', 'A', 'D', '_', 'A', 'C', 'K']
/-- See `mnemonicStart`. -/
def mnemonicReadNack : List Char := ['R', 'E', 'A', 'D', '_', 'N', 'A', 'C', 'K']

/-- A command without operands. -/
def plainCommand (i : Instr) (operands : List (List Char)) : Except AsmError Instr :=
  if operands.isEmpty then .ok i else .error .badOperands

/-- WRITE and its immediate, 0 to 255 (R44, R49). -/
def writeCommand : List (List Char) → Except AsmError Instr
  | [w] =>
    match numeral? w with
    | some n => if immFits n then .ok (.write (BitVec.ofNat 8 n)) else .error .immTooLarge
    | none => .error .badOperands
  | _ => .error .badOperands

/-- The words of a line as a command (R49). -/
def commandOf : List (List Char) → Except AsmError Instr
  | [] => .error .noCommand
  | m :: operands =>
    if m = mnemonicStart then plainCommand .start operands
    else if m = mnemonicStop then plainCommand .stop operands
    else if m = mnemonicWrite then writeCommand operands
    else if m = mnemonicReadAck then plainCommand .readAck operands
    else if m = mnemonicReadNack then plainCommand .readNack operands
    else .error .unknownMnemonic

/-- One line of assembly (R49). -/
def parseLine (line : List Char) : Except AsmError Instr := commandOf (wordsFrom [] (stripComment line))

/-- One line to its canonical word, reserved bits 0 (R49). -/
def assembleLine (line : List Char) : Except AsmError CmdWord :=
  match parseLine line with
  | .ok i => .ok (encode i)
  | .error e => .error e

/-- A hexadecimal digit, upper case. -/
def hexChar (d : Nat) : Char := if d < 10 then Char.ofNat (48 + d) else Char.ofNat (55 + d)

/-- A command as a line of assembly. -/
def printLine : Instr → List Char
  | .start => mnemonicStart
  | .stop => mnemonicStop
  | .write b => mnemonicWrite ++ [' ', '0', 'x', hexChar (b.toNat / 16), hexChar (b.toNat % 16)]
  | .readAck => mnemonicReadAck
  | .readNack => mnemonicReadNack

end Sys2Proof.Machine
end

