-- ==== Sys2Proof/Machine/Programs.lean ====
section
/-! DEFINITION. `prog` of R55 as one function, the current micro-op, and the line levels a stretch of micro-ops leaves. -/

namespace Sys2Proof.Machine

/-- `prog(lcmd)`, a function of the command and of `WACK_RELEASE` alone (R55). -/
def prog (P : Params) : Instr → List MicroOp
  | .start => startProg
  | .stop => stopProg
  | .write b => writeProg P b
  | .readNack => readNackProg
  | .readAck => readAckProg

/-- The current micro-op of a running command, `prog(lcmd)[upc]` (R56). -/
def State.current (s : State) : Option MicroOp := (prog Config.params s.running)[s.upc.toNat]?

/-- `scl_oe` after a micro-op that finds it at `v` (R52). -/
def sclAfter (v : Bool) : MicroOp → Bool
  | .CL => true
  | .CR => false
  | .DL => v
  | .DR => v
  | .DS _ => v
  | .W => v
  | .SMP => v

/-- `sda_oe` after a micro-op that finds it at `v` (R52). -/
def sdaAfter (v : Bool) : MicroOp → Bool
  | .CL => v
  | .CR => v
  | .DL => true
  | .DR => false
  | .DS x => !x
  | .W => v
  | .SMP => v

/-- `scl_oe` after a sequence of micro-ops that finds it at `v`. -/
def sclAlong (v : Bool) (us : List MicroOp) : Bool := us.foldl sclAfter v

/-- `sda_oe` after a sequence of micro-ops that finds it at `v`. -/
def sdaAlong (v : Bool) (us : List MicroOp) : Bool := us.foldl sdaAfter v

end Sys2Proof.Machine
end

