-- ==== Sys2Proof/Machine/Observe.lean ====
section
/-! DEFINITION. What is seen of the engine: its output ports (R14), the line levels (R9, R16, R18, R19), the bus-level
observation and the bus conditions (R41, R89). DEDUCED: how a pair of cycles is read as a condition, log entry 11. -/

namespace Sys2Proof.Machine

/-- The output ports of R14. -/
structure Outputs where
  /-- ready for a command -/
  cmdReady : Bool
  /-- copy of `busy` -/
  busy : Bool
  /-- copy of `done` -/
  done : Bool
  /-- copy of `rdata` -/
  rdata : Byte
  /-- drive SCL low -/
  sclOe : Bool
  /-- drive SDA low -/
  sdaOe : Bool
  deriving DecidableEq, Repr

/-- The output ports in the cycle of this state (R14, R54). -/
def State.outputs (s : State) : Outputs :=
  { cmdReady := s.cmdReady, busy := s.busy, done := s.done, rdata := s.rdata, sclOe := s.sclOe, sdaOe := s.sdaOe }

/-- The SCL level as far as the engine is concerned (R18): high unless driven low. -/
def State.sclLevel (s : State) : Bool := !s.sclOe

/-- The SDA level (R19): the wired-AND of the engine's output with what the environment drives. -/
def State.sdaLevel (s : State) : Bool := !s.sdaOe && s.input.sdaIn

/-- The sample the coming edge takes, if it runs `SMP` (R41, R52). -/
def State.sample (s : State) : Option Bool :=
  if !s.input.rst && s.busy && s.current == some .SMP then some s.input.sdaIn else none

/-- One cycle of the bus-level observation (R41): the outputs `(scl_oe, sda_oe)` and the sample, where one is taken. -/
def State.observe (s : State) : Bool × Bool × Option Bool := (s.sclOe, s.sdaOe, s.sample)

/-- `sda_oe` goes from 0 to 1 while `scl_oe = 0` (R41), as read from the outputs alone. -/
def drivesStart (s t : State) : Bool := !s.sclOe && !t.sclOe && !s.sdaOe && t.sdaOe

/-- `sda_oe` goes from 1 to 0 while `scl_oe = 0` (R41), as read from the outputs alone. -/
def drivesStop (s t : State) : Bool := !s.sclOe && !t.sclOe && s.sdaOe && !t.sdaOe

/-- A START condition on the bus: the outputs make one and no slave holds SDA low before it (R41, R66 (c)). -/
def busStart (s t : State) : Bool := drivesStart s t && s.sdaLevel

/-- A STOP condition on the bus: the outputs make one and the line is otherwise released after it (R41, R67 (d)). -/
def busStop (s t : State) : Bool := drivesStop s t && t.sdaLevel

/-- Both lines are released from low at one edge: only a reset does this (R89). -/
def bothReleased (s t : State) : Bool := s.sclOe && s.sdaOe && !t.sclOe && !t.sdaOe

/-- What the bus sees across the edge from `s` to `t`. Where both wires rise at once, their order is open (R89, I8),
and so is what the bus sees. -/
def busCondition (s t : State) : Option BusCondition :=
  if bothReleased s t then Config.freeBothReleased s.cycle
  else if busStart s t then some .start
  else if busStop s t then some .stop
  else none

end Sys2Proof.Machine
end

