-- ==== Sys2Proof/Machine/Issuer.lean ====
section
/-! DEFINITION. The issuer's side (R11, R50, R51, R92 to R96): pseudo-instructions as command sequences, the framing of
transactions, and the bytes collected from the read-data port. The engine knows none of it (R30, R94; log
entry 15). -/

namespace Sys2Proof.Machine

/-- The wire-level constants of the pseudo-instructions (R51). They belong to the attached devices and the issuer, so they
are a parameter (I11; log entry 16). -/
structure DeviceConstants where
  /-- DAC write address -/
  dacWriteAddress : Byte
  /-- ADC write address -/
  adcWriteAddress : Byte
  /-- ADC read address -/
  adcReadAddress : Byte
  /-- DAC command byte, "code load" -/
  dacCodeLoad : Byte
  deriving DecidableEq, Repr

/-- The values R51 transcribes. -/
def DeviceConstants.transcribed : DeviceConstants :=
  { dacWriteAddress := 0x3A#8, adcWriteAddress := 0xD0#8, adcReadAddress := 0xD1#8, dacCodeLoad := 0x01#8 }

/-- The pseudo-instructions of R50. -/
inductive Pseudo where
  /-- load the DAC code `hi`, `lo` -/
  | dacLoad (hi lo : Byte)
  /-- configure the ADC -/
  | adcConf (cfg : Byte)
  /-- read three bytes from the ADC -/
  | adcRead3
  /-- read four bytes from the ADC -/
  | adcRead4
  deriving DecidableEq, Repr

/-- R50: the expansion the issuer sends (C4 for DAC_LOAD, C5 for ADC_CONF), for the device constants `K` (I11). -/
def Pseudo.expand (K : DeviceConstants) : Pseudo → List Instr
  | .dacLoad hi lo => [.start, .write K.dacWriteAddress, .write K.dacCodeLoad, .write hi, .write lo, .stop]
  | .adcConf cfg => [.start, .write K.adcWriteAddress, .write cfg, .stop]
  | .adcRead3 => [.start, .write K.adcReadAddress, .readAck, .readAck, .readNack, .stop]
  | .adcRead4 => [.start, .write K.adcReadAddress, .readAck, .readAck, .readAck, .readNack, .stop]

/-- A body of WRITEs ended by STOP (R94). -/
def writesThenStop : List Instr → Bool
  | [.stop] => true
  | .write _ :: is => writesThenStop is
  | _ => false

/-- A body of READ_ACKs, one READ_NACK and STOP (R94, R95). -/
def readsThenStop : List Instr → Bool
  | [.readNack, .stop] => true
  | .readAck :: is => readsThenStop is
  | _ => false

/-- R94, R95: START, the address, a body of writes or of reads whose last alone is not acknowledged, STOP. -/
def isTransaction : List Instr → Bool
  | .start :: .write _ :: is => writesThenStop is || readsThenStop is
  | _ => false

/-- R93: the issuer issues START only when the bus is idle: the engine releases SDA and no slave holds it low. -/
def startAllowed (s : State) : Bool := !s.sdaOe && s.input.sdaIn

/-- R92 (a): a word offered and not yet accepted stands unchanged in the next cycle. -/
def offerHeld (s t : State) : Bool :=
  !(s.input.cmdValid && !s.cmdReady) || (t.input.cmdValid && t.input.cmd == s.input.cmd)

/-- A cycle in which a READ's byte is collected (R50, R96): its `done` strobe. -/
def State.byteReady (s : State) : Bool := s.done && s.running.isRead

/-- The bytes an issuer collects from the states of successive cycles, in the order received (R32, R50). -/
def collect (cycles : List State) : List Byte := (cycles.filter State.byteReady).map State.rdata

/-- The input ports in a cycle that offers `w`. -/
def offering (w : CmdWord) (sdaIn : Bool) : PortIn := { rst := false, cmdValid := true, cmd := w, sdaIn := sdaIn }

end Sys2Proof.Machine
end

