-- ==== Sys2Proof/Machine/Timing.lean ====
section
/-! DEFINITION. The timing that follows from the cycle model (R52, R55, R60, R99 to R101). The step does not use it. -/

namespace Sys2Proof.Machine

/-- How many edges a micro-op takes (R52). -/
def MicroOp.edges (P : Params) : MicroOp → Nat
  | .W => P.delay
  | .CL => 1
  | .CR => 1
  | .DL => 1
  | .DR => 1
  | .DS _ => 1
  | .SMP => 1

/-- A sequence edge by edge: each micro-op as often as it takes edges. Entry `k - 1` is what runs at the `k`-th edge
after acceptance. -/
def edgesOf (P : Params) (us : List MicroOp) : List MicroOp := us.flatMap fun u => List.replicate (u.edges P) u

/-- `scl_oe` after each edge of a sequence that finds it at `v` (R41, R99). -/
def sclTrace (v : Bool) : List MicroOp → List Bool
  | [] => []
  | u :: us => sclAfter v u :: sclTrace (sclAfter v u) us

/-- `sda_oe` after each edge of a sequence that finds it at `v` (R41, R99). -/
def sdaTrace (v : Bool) : List MicroOp → List Bool
  | [] => []
  | u :: us => sdaAfter v u :: sdaTrace (sdaAfter v u) us

/-- How many edges a sequence takes. -/
def lengthInEdges (P : Params) (us : List MicroOp) : Nat := (us.map (MicroOp.edges P)).sum

/-- `N` of R60: edges from a command's acceptance to its completion. -/
def duration (P : Params) (i : Instr) : Nat := lengthInEdges P (prog P i)

/-- The edge, counted from acceptance, at which cell `j` of a READ samples SDA: `e + 2 + 2D` (R71). -/
def sampleEdge (P : Params) (j : Nat) : Nat := 3 + j * (3 + 2 * P.delay) + 2 + 2 * P.delay

/-- The bit period inside a byte, in cycles (R99, R100). -/
def bitPeriod (P : Params) : Nat := 3 + 2 * P.delay

/-- SCL frequency inside a byte for a clock of `fclk`, the exact quotient (R100; log entry 14). -/
def sclFrequency (P : Params) (fclk : Rat) : Rat := fclk / bitPeriod P

/-- The value R100 gives near which `DELAY` lies for a clock of `fclk` and an SCL frequency of `fscl`. -/
def delayForFrequency (fclk fscl : Rat) : Rat := (fclk / fscl - 3) / 2

/-- Cycles a back-to-back command sequence takes: the sum of `N + 1` (R60, R101). -/
def latency (P : Params) (is : List Instr) : Nat := (is.map fun i => duration P i + 1).sum

/-- Acceptance edges of a back-to-back sequence whose first command is accepted at edge `e` (R60). -/
def acceptanceEdges (P : Params) (e : Nat) : List Instr → List Nat
  | [] => []
  | i :: is => e :: acceptanceEdges P (e + duration P i + 1) is

/-- Completion edges of a back-to-back sequence whose first command is accepted at edge `e` (R60). -/
def completionEdges (P : Params) (e : Nat) : List Instr → List Nat
  | [] => []
  | i :: is => (e + duration P i) :: completionEdges P (e + duration P i + 1) is

end Sys2Proof.Machine
end

