-- ==== Sys2Proof/Machine/WholeStep.lean ====
section
/-! DEFINITION. R65's step written out as the spec writes it, in one function over the word in `lcmd`. The machine runs
`step`, which is built of the shared operations; that the two agree is one of the statements. -/

namespace Sys2Proof.Machine

/-- R65's case on the micro-op: the changed state and whether the micro-op finished. -/
def wholeCase (P : Params) (u : MicroOp) (s s' : State) (sdaIn : Bool) : State × Bool :=
  match u with
  | .CL => ({ s' with sclOe := true }, true)
  | .CR => ({ s' with sclOe := false }, true)
  | .DL => ({ s' with sdaOe := true }, true)
  | .DR => ({ s' with sdaOe := false }, true)
  | .DS x => ({ s' with sdaOe := !x }, true)
  | .SMP => ({ s' with acc := (s.acc <<< 1) ||| (BitVec.ofBool sdaIn).setWidth 8 }, true)
  | .W => if s.wcnt < P.delay - 1 then ({ s' with wcnt := s.wcnt + 1 }, false) else ({ s' with wcnt := 0 }, true)

/-- R65 on the engine's state; the model's own fields stay. Where `upc` indexes no micro-op, R65 gives nothing. -/
def wholeStep (P : Params) (s : State) (p : PortIn) : Option State :=
  if p.rst then some { State.reset with inputs := s.inputs, cycle := s.cycle }
  else
    let s' := { s with done := false }
    if !s.busy then
      if p.cmdValid then some { s' with lcmd := p.cmd, busy := true, upc := 0#6, wcnt := 0 } else some s'
    else
      let us := prog P (decode s.lcmd)
      match us[s.upc.toNat]? with
      | none => none
      | some u =>
        let r := wholeCase P u s s' p.sdaIn
        if r.2 then
          if s.upc.toNat + 1 < us.length then some { r.1 with upc := s.upc + 1#6 }
          else
            let c := { r.1 with busy := false, done := true, upc := 0#6 }
            if opField s.lcmd == 0b11#2 then some { c with rdata := r.1.acc } else some c
        else some r.1

end Sys2Proof.Machine
end

