-- ==== Sys2Proof/Safety.lean ====
section
/-! DEFINITION. What counts as a safe run, and the invariant of the engine that statements use. -/

namespace Sys2Proof.Safety

open Sys2Proof Sys2Proof.Machine

/-- `n` steps of the machine. -/
def runFor (n : Nat) (s : State) : Host.Outcome State Fault Refusal := Host.Core.run core n s

/-- The engine's nine elements alone (R15): the model's own fields blanked. -/
def engineOf (s : State) : State := { s with inputs := [], cycle := 0 }

/-- The environment keeps the wired-AND law (R19) in each of the next `n` cycles. -/
def LawfulFor (n : Nat) (s : State) : Prop :=
  ∀ k, k < n → ∀ t, runFor k s = .next t → t.lawful = true

/-- No reset in any of the next `n` cycles. -/
def NoResetFor (n : Nat) (s : State) : Prop := ∀ k, k < n → (s.scheduled k).rst = false

/-- The issuer offers the word `w` to an idle engine in this cycle, and then neither the environment nor reset disturbs
the `n` edges after the acceptance: the premise under which a command runs undisturbed. -/
structure AcceptsUndisturbed (w : CmdWord) (n : Nat) (s : State) : Prop where
  idle : s.busy = false
  offered : s.input.cmdValid = true
  word : s.input.cmd = w
  noReset : NoResetFor (n + 1) s
  lawful : LawfulFor (n + 1) s

/-- The invariant of the engine between edges, beyond the types: what R20, R25, R26, R57 and R61 say of idle and of
running, and what the micro-ops already run have left on the lines (R52). -/
structure EngineInv (s : State) : Prop where
  /-- `done` is raised by completion, which ends `busy` (R57, R58). -/
  done_idle : s.done = true → s.busy = false
  /-- While idle, `upc` is 0 (R26). -/
  idle_upc : s.busy = false → s.upc = 0#6
  /-- `wcnt` is 0 unless the current micro-op is a `W` (R25). -/
  wcnt_zero : ¬(s.busy = true ∧ s.current = some .W) → s.wcnt = 0
  /-- `wcnt` runs from 0 to `DELAY - 1` (R25). -/
  wcnt_bound : s.wcnt < Config.params.delay
  /-- While idle, SCL is released (R61). -/
  idle_scl : s.busy = false → s.sclOe = false
  /-- While running, `upc` indexes a micro-op (R26). -/
  upc_bound : s.busy = true → s.upc.toNat < (prog Config.params s.running).length
  /-- SCL is where the micro-ops already run have left it. -/
  run_scl : s.busy = true → s.sclOe = sclAlong false ((prog Config.params s.running).take s.upc.toNat)
  /-- SDA is where the micro-ops already run have left it, from one of its two levels at acceptance. -/
  run_sda : s.busy = true → ∃ v, s.sdaOe = sdaAlong v ((prog Config.params s.running).take s.upc.toNat)

/-- Whether the coming edge finishes a command's last micro-op and so completes it (R57), reset apart. -/
def completesNow (s : State) : Bool :=
  !s.input.rst && s.busy && decide (s.upc.toNat + 1 = (prog Config.params s.running).length) &&
    !(s.current == some .W && decide (s.wcnt + 1 < Config.params.delay))

/-- The state a wait that is not the last micro-op leaves at this edge (R56). -/
def waited (s : State) : State :=
  if s.wcnt + 1 < Config.params.delay then { s with wcnt := s.wcnt + 1, done := false }
  else { s with wcnt := 0, upc := s.upc + 1#6, done := false }

/-- The state a closing wait leaves at this edge: one more cycle waited, or the command completed (R56, R57). -/
def waitedToEnd (s : State) : State :=
  if s.wcnt + 1 < Config.params.delay then { s with wcnt := s.wcnt + 1, done := false }
  else { s with wcnt := 0, upc := 0#6, busy := false, done := true }

/-- Two engines that agree on everything but the read data path: `acc`, `rdata` and the levels of SDA to come. -/
structure SameButReadData (s t : State) : Prop where
  busy : s.busy = t.busy
  done : s.done = t.done
  lcmd : s.lcmd = t.lcmd
  upc : s.upc = t.upc
  wcnt : s.wcnt = t.wcnt
  sclOe : s.sclOe = t.sclOe
  sdaOe : s.sdaOe = t.sdaOe
  /-- the model's own counter -/
  cycle : s.cycle = t.cycle
  /-- the coming ports, the SDA level apart -/
  script : s.inputs.map (fun p => (p.rst, p.cmdValid, p.cmd)) = t.inputs.map (fun p => (p.rst, p.cmdValid, p.cmd))

end Sys2Proof.Safety
end

