-- ==== Sys2Proof/Certificates/Slice0/Obligations.lean ====
section
/-! DEFINITION. The statements about the model, in the order of OBLIGATIONS.json: encoding, the edges, the micro-ops,
the commands one edge at a time, frames, whole-machine rules, the invariant, whole commands, the bus, the issuer. -/

open Sys2Proof Sys2Proof.Machine Sys2Proof.Safety

/-! ### Encoding -/

/-- R43, R47: every 10-bit word is an instance of exactly one row of the opcode table, the row of the command it
decodes to; every number that fits the port decodes. -/
def Obligations.EveryWordSelectsOneCommand : Prop :=
  (∀ w : CmdWord, opcodeRows.filter (fun r => r.selects w) = [(decode w).row]) ∧
  (∀ n : Nat, n < 1024 → decodeNat n = .ok (decode (BitVec.ofNat 10 n)))

/-- R46: the reserved bits (listed per `op`) do not change the command a word selects, and a machine with any values
in the reserved bits of the latched word steps exactly as with those bits 0, the latched word itself apart; the encoder
writes them as 0. -/
def Obligations.ReservedBitsAreIgnored : Prop :=
  (∀ w : CmdWord,
    (opField w = 0#2 → reservedMask w = 0x0FF#10) ∧ (opField w = 1#2 → reservedMask w = 0x0FF#10) ∧
    (opField w = 2#2 → reservedMask w = 0#10) ∧ (opField w = 3#2 → reservedMask w = 0x0FE#10)) ∧
  (∀ w : CmdWord, decode (w &&& ~~~reservedMask w) = decode w) ∧
  (∀ s : State,
    mapNext (fun t => { t with lcmd := t.lcmd &&& ~~~reservedMask t.lcmd }) (step s) =
    mapNext (fun t => { t with lcmd := t.lcmd &&& ~~~reservedMask t.lcmd })
      (step { s with lcmd := s.lcmd &&& ~~~reservedMask s.lcmd })) ∧
  (∀ i : Instr, reservedZero (encode i) = true)

/-- Decode and encode agree, both ways: every command is read back from its word, as a word and as a table word, and
the word of what a word decodes to is that word with its reserved bits 0. How a table word is read is the model's own
inference, log entry 13. -/
def Obligations.DecodeAndEncodeAgree : Prop :=
  (∀ i : Instr, decode (encode i) = i ∧ decodeTableWord 16 (encode i).toNat = some i) ∧
  (∀ w : CmdWord, encode (decode w) = w &&& ~~~reservedMask w)

/-- R44, R45: WRITE's operand is `cmd[7:0]`, taken unchanged; READ's is `cmd[0]`. -/
def Obligations.OperandsAreTheirFields : Prop :=
  ∀ w : CmdWord,
    (opField w = 2#2 → ∃ b : Byte, decode w = .write b ∧ ∀ k, k < 8 → b.getLsbD k = w.getLsbD k) ∧
    (opField w = 3#2 → decode w = if w.getLsbD 0 then .readAck else .readNack)

/-- The decode vectors of 95_test_vectors.md section 2. -/
def Obligations.DecodeVectorsHold : Prop :=
  decode 0x000#10 = .start ∧ decode 0x0FF#10 = .start ∧ decode 0x100#10 = .stop ∧ decode 0x1AB#10 = .stop ∧
  decode 0x200#10 = .write 0x00#8 ∧ decode 0x2FF#10 = .write 0xFF#8 ∧ decode 0x23A#10 = .write 0x3A#8 ∧
  decode 0x300#10 = .readNack ∧ decode 0x3FE#10 = .readNack ∧ decode 0x301#10 = .readAck ∧
  decode 0x3FF#10 = .readAck

/-! ### The edges -/

/-- R24, R55, R56: at an edge without reset and with the law kept, a busy engine runs exactly `exec` of the command its
latched word selects, and the cycle passes. The second clause, on a word placed by `withFetchWord`, is about the model's
own convention and no rule of the spec: DESIGN CHOICE, log entry 6 (and log entry 13 for the table's numbering). -/
def Obligations.StepRunsLatchedCommand : Prop :=
  (∀ s : State, s.input.rst = false → s.lawful = true → s.busy = true →
    step s = mapNext State.tick (exec (decode s.lcmd) s)) ∧
  (∀ (s : State) (nbits w : Nat) (i : Instr), decodeTableWord nbits w = some i →
    step (s.withFetchWord nbits w) = mapNext State.tick (exec i (s.withFetchWord nbits w)) ∧
    (s.withFetchWord nbits w).upc = 0#6)

/-- R29, R88: a reset edge loads every element's reset value, whatever the engine was doing and whatever the ports
carry, and no command is accepted meanwhile: `cmd_ready` is 0. -/
def Obligations.ResetEdgeLoadsResetState : Prop :=
  ∀ s : State, s.input.rst = true →
    (∃ t, step s = .next t ∧ t.busy = false ∧ t.done = false ∧ t.rdata = 0x00#8 ∧ t.acc = 0x00#8 ∧
      t.lcmd = 0b0000000000#10 ∧ t.upc = 0#6 ∧ t.wcnt = 0 ∧ t.sclOe = false ∧ t.sdaOe = false) ∧
    s.cmdReady = false

/-- R90: while `rst` stays high the engine stays in the reset state, after one edge already; and the first edge with
`rst` low accepts the offered command. -/
def Obligations.HeldResetKeepsResetState : Prop :=
  ∀ (n : Nat) (s : State), (∀ k, k ≤ n → (s.scheduled k).rst = true) →
    ∃ t, runFor (n + 1) s = .next t ∧
      engineOf t = engineOf State.reset ∧
      ((s.scheduled (n + 1)).rst = false → (s.scheduled (n + 1)).cmdValid = true →
        ∃ u, runFor (n + 2) s = .next u ∧ u.busy = true ∧ u.lcmd = (s.scheduled (n + 1)).cmd ∧ u.upc = 0#6)

/-- R89: a reset while a command runs abandons it: no `done`, `rdata` lost, both lines released. With SCL released and
SDA driven before it, the outputs make a stop condition; with both driven, both are released at once and what the bus
sees is the free draw of log entry 8. The reading of a bus condition is log entry 11. -/
def Obligations.ResetAbandonsRunningCommand : Prop :=
  ∀ s : State, s.busy = true → s.input.rst = true →
    ∃ t, step s = .next t ∧ t.busy = false ∧ t.done = false ∧ t.rdata = 0x00#8 ∧ t.sclOe = false ∧ t.sdaOe = false ∧
      (s.sclOe = false → s.sdaOe = true → drivesStop s t = true) ∧
      (s.sclOe = true → s.sdaOe = true → busCondition s t = Config.freeBothReleased s.cycle)

/-- R53: the acceptance edge latches the word and starts the command; no micro-op runs, the lines, `acc` and `rdata`
keep their values, and the first micro-op is the next edge's. -/
def Obligations.AcceptanceEdge : Prop :=
  ∀ s : State, s.input.rst = false → s.lawful = true → s.busy = false → s.input.cmdValid = true →
    ∃ t, step s = .next t ∧ t.lcmd = s.input.cmd ∧ t.busy = true ∧ t.upc = 0#6 ∧ t.wcnt = 0 ∧ t.done = false ∧
      t.sclOe = s.sclOe ∧ t.sdaOe = s.sdaOe ∧ t.acc = s.acc ∧ t.rdata = s.rdata ∧
      t.current = (prog Config.params (decode s.input.cmd))[0]?

/-- R54: `cmd_ready = (not busy) and (not rst)`, and a word offered while it is 0 has no effect on any state: whatever
word is offered, and whether one is, the step is the same. -/
def Obligations.OfferWhileNotReadyHasNoEffect : Prop :=
  (∀ s : State, s.cmdReady = (!s.busy && !s.input.rst)) ∧
  (∀ (s : State) (p q : PortIn) (ps : List PortIn), p.rst = q.rst → p.sdaIn = q.sdaIn →
    State.cmdReady { s with inputs := p :: ps } = false →
    step { s with inputs := p :: ps } = step { s with inputs := q :: ps })

/-- R87: an idle edge changes nothing of the engine but `done`, which it holds at 0. -/
def Obligations.IdleEdgeChangesOnlyDone : Prop :=
  ∀ s : State, s.input.rst = false → s.lawful = true → s.busy = false → s.input.cmdValid = false →
    ∃ t, step s = .next t ∧ engineOf t = engineOf { s with done := false }

/-- R38 (b), R80: acceptance and completion never fall on the same edge. -/
def Obligations.AcceptanceAndCompletionNeverShareAnEdge : Prop :=
  ∀ s t : State, step s = .next t → s.cmdReady = true → s.input.cmdValid = true →
    t.done = false ∧ t.busy = true ∧ t.lcmd = s.input.cmd

/-- R19 and I4 (log entry 2): SDA high in a cycle where the engine drives it low discards the run, unless reset; an
engine meeting the invariant stops for no other reason, and refuses nothing (R77). -/
def Obligations.OnlyABrokenLawStopsTheEngine : Prop :=
  (∀ s : State, s.input.rst = false → s.sdaOe = true → s.input.sdaIn = true → step s = .fault .wiredAndBroken) ∧
  (∀ s : State, EngineInv s → (s.sdaOe = true → s.input.sdaIn = false) → ∃ t, step s = .next t) ∧
  (∀ (s : State) (r : Refusal), step s ≠ .refused r)

/-! ### The micro-ops -/

/-- R52, R56: what each micro-op does at its edge, in any command: it answers a next state, sets its line or the
accumulator and leaves the rest of the three; past the sequence a meaning stops by name. -/
def Obligations.MicroOpEffects : Prop :=
  (∀ (i : Instr) (s : State) (u : MicroOp), (prog Config.params i)[s.upc.toNat]? = some u →
    ∃ t, exec i s = .next t ∧
      (u = .CL → t.sclOe = true ∧ t.sdaOe = s.sdaOe ∧ t.acc = s.acc) ∧
      (u = .CR → t.sclOe = false ∧ t.sdaOe = s.sdaOe ∧ t.acc = s.acc) ∧
      (u = .DL → t.sdaOe = true ∧ t.sclOe = s.sclOe ∧ t.acc = s.acc) ∧
      (u = .DR → t.sdaOe = false ∧ t.sclOe = s.sclOe ∧ t.acc = s.acc) ∧
      (∀ x, u = .DS x → t.sdaOe = !x ∧ t.sclOe = s.sclOe ∧ t.acc = s.acc) ∧
      (u = .W → t.sclOe = s.sclOe ∧ t.sdaOe = s.sdaOe ∧ t.acc = s.acc) ∧
      (u = .SMP → t.sclOe = s.sclOe ∧ t.sdaOe = s.sdaOe ∧
        t.acc = (s.acc <<< 1) ||| (BitVec.ofBool s.input.sdaIn).setWidth 8) ∧
      (u ≠ .W → t.upc = s.upc + 1#6 ∧ t.wcnt = s.wcnt ∧ t.done = false)) ∧
  (∀ (i : Instr) (s : State), (prog Config.params i).length ≤ s.upc.toNat → exec i s = .fault .upcOutOfRange)

/-- R74: `SMP` discards `acc[7]`, moves each `acc[i]` up, and puts the sampled level in bit 0; no flag moves. Said of
both READs, the commands that have it. -/
def Obligations.SampleShiftsIntoBitZero : Prop :=
  ∀ (i : Instr) (s : State), (prog Config.params i)[s.upc.toNat]? = some .SMP →
    ∃ t, exec i s = .next t ∧ t.acc.getLsbD 0 = s.input.sdaIn ∧
      (∀ k, k < 7 → t.acc.getLsbD (k + 1) = s.acc.getLsbD k) ∧ t.busy = s.busy ∧ t.done = false

/-- R56: a `W` that is not the last micro-op lasts exactly `DELAY` edges, `wcnt` going 0, 1, …, `DELAY - 1`, the lines
still; then `upc` moves on and `wcnt` is 0. -/
def Obligations.WaitLastsDelayEdges : Prop :=
  ∀ s : State, s.busy = true → s.current = some .W → s.wcnt = 0 →
    s.upc.toNat + 1 < (prog Config.params s.running).length →
    NoResetFor Config.params.delay s → LawfulFor Config.params.delay s →
    (∀ k, k < Config.params.delay → ∃ t, runFor k s = .next t ∧ t.wcnt = k ∧ t.upc = s.upc ∧ t.busy = true ∧
      t.sclOe = s.sclOe ∧ t.sdaOe = s.sdaOe) ∧
    (∃ t, runFor Config.params.delay s = .next t ∧ t.wcnt = 0 ∧ t.upc = s.upc + 1#6 ∧ t.busy = true ∧
      t.sclOe = s.sclOe ∧ t.sdaOe = s.sdaOe)

/-- R57: the edge that finishes the last micro-op completes the command: `busy` falls, `done` rises, `upc` and `wcnt`
are 0, and a READ returns `acc`; at the first edge after it the engine can accept, unless in reset. The last micro-op
of every command is `W`. -/
def Obligations.CompletionEdge : Prop :=
  (∀ (i : Instr) (s : State), s.upc.toNat + 1 = (prog Config.params i).length → s.wcnt + 1 = Config.params.delay →
    ∃ t, exec i s = .next t ∧
      t = { s with busy := false, done := true, upc := 0#6, wcnt := 0, rdata := if i.isRead then s.acc else s.rdata } ∧
      ∀ (p : PortIn) (ps : List PortIn), p.rst = false → State.cmdReady { t with inputs := p :: ps } = true) ∧
  (∀ i : Instr, (prog Config.params i).getLast? = some .W) ∧
  (∀ w : CmdWord, (decode w).isRead = true ↔ opField w = 0b11#2)

/-! ### The commands, one edge at a time -/

/-- R66: START at each of its micro-ops `[CR, DL, W]`, whatever the state: the next state, whole. -/
def Obligations.StartEdgeByEdge : Prop :=
  ∀ s : State,
    (s.upc = 0#6 → exec .start s = .next { s with sclOe := false, upc := 1#6, done := false }) ∧
    (s.upc = 1#6 → exec .start s = .next { s with sdaOe := true, upc := 2#6, done := false }) ∧
    (s.upc = 2#6 → exec .start s = .next (waitedToEnd s))

/-- R67: STOP at each of its micro-ops `[CL, DL, W, CR, W, DR, W]`, whatever the state: the next state, whole. -/
def Obligations.StopEdgeByEdge : Prop :=
  ∀ s : State,
    (s.upc = 0#6 → exec .stop s = .next { s with sclOe := true, upc := 1#6, done := false }) ∧
    (s.upc = 1#6 → exec .stop s = .next { s with sdaOe := true, upc := 2#6, done := false }) ∧
    (s.upc = 2#6 → exec .stop s = .next (waited s)) ∧
    (s.upc = 3#6 → exec .stop s = .next { s with sclOe := false, upc := 4#6, done := false }) ∧
    (s.upc = 4#6 → exec .stop s = .next (waited s)) ∧
    (s.upc = 5#6 → exec .stop s = .next { s with sdaOe := false, upc := 6#6, done := false }) ∧
    (s.upc = 6#6 → exec .stop s = .next (waitedToEnd s))

/-- R68: WRITE b in data cell `j`, `upc` from `5j` to `5j+4`: SCL low, SDA to the level of `b[7-j]`, wait, SCL
released, wait; the next state, whole. -/
def Obligations.WriteCellEdgeByEdge : Prop :=
  ∀ (b : Byte) (s : State) (j : Nat), j < 8 →
    (s.upc.toNat = 5 * j → exec (.write b) s = .next { s with sclOe := true, upc := s.upc + 1#6, done := false }) ∧
    (s.upc.toNat = 5 * j + 1 →
      exec (.write b) s = .next { s with sdaOe := !b.getLsbD (7 - j), upc := s.upc + 1#6, done := false }) ∧
    (s.upc.toNat = 5 * j + 2 → exec (.write b) s = .next (waited s)) ∧
    (s.upc.toNat = 5 * j + 3 →
      exec (.write b) s = .next { s with sclOe := false, upc := s.upc + 1#6, done := false }) ∧
    (s.upc.toNat = 5 * j + 4 → exec (.write b) s = .next (waited s))

/-- R69: the WRITE acknowledge slot from `upc = 40`, for each value of `WACK_RELEASE`; the next state, whole. -/
def Obligations.WriteAckSlotEdgeByEdge : Prop :=
  ∀ (b : Byte) (s : State),
    (s.upc = 40#6 → exec (.write b) s = .next { s with sclOe := true, upc := 41#6, done := false }) ∧
    (Config.params.wackRelease = true →
      (s.upc = 41#6 → exec (.write b) s = .next { s with sdaOe := false, upc := 42#6, done := false }) ∧
      (s.upc = 42#6 → exec (.write b) s = .next (waited s)) ∧
      (s.upc = 43#6 → exec (.write b) s = .next { s with sclOe := false, upc := 44#6, done := false }) ∧
      (s.upc = 44#6 → exec (.write b) s = .next (waitedToEnd s))) ∧
    (Config.params.wackRelease = false →
      (s.upc = 41#6 → exec (.write b) s = .next (waited s)) ∧
      (s.upc = 42#6 → exec (.write b) s = .next { s with sclOe := false, upc := 43#6, done := false }) ∧
      (s.upc = 43#6 → exec (.write b) s = .next (waitedToEnd s)))

/-- R71: the body both READs share, prologue at `upc` 0 and 1, then cell `j` at `upc` from `5j+2` to `5j+6`; the next
state, whole. -/
def Obligations.ReadBodyEdgeByEdge : Prop :=
  ∀ (i : Instr) (s : State), i = .readAck ∨ i = .readNack →
    (s.upc = 0#6 → exec i s = .next { s with sclOe := true, upc := 1#6, done := false }) ∧
    (s.upc = 1#6 → exec i s = .next { s with sdaOe := false, upc := 2#6, done := false }) ∧
    (∀ j, j < 8 →
      (s.upc.toNat = 5 * j + 2 → exec i s = .next { s with sclOe := true, upc := s.upc + 1#6, done := false }) ∧
      (s.upc.toNat = 5 * j + 3 → exec i s = .next (waited s)) ∧
      (s.upc.toNat = 5 * j + 4 → exec i s = .next { s with sclOe := false, upc := s.upc + 1#6, done := false }) ∧
      (s.upc.toNat = 5 * j + 5 → exec i s = .next (waited s)) ∧
      (s.upc.toNat = 5 * j + 6 →
        exec i s = .next { s with acc := (s.acc <<< 1) ||| (BitVec.ofBool s.input.sdaIn).setWidth 8,
                                  upc := s.upc + 1#6, done := false }))

/-- R72, R73: the tails from `upc = 42`. READ_ACK drives SDA low after SCL; READ_NACK leaves it; both end by returning
`acc` in `rdata` (R75). The next state, whole. -/
def Obligations.ReadTailsEdgeByEdge : Prop :=
  ∀ s : State,
    (s.upc = 42#6 → exec .readAck s = .next { s with sclOe := true, upc := 43#6, done := false }) ∧
    (s.upc = 43#6 → exec .readAck s = .next { s with sdaOe := true, upc := 44#6, done := false }) ∧
    (s.upc = 44#6 → exec .readAck s = .next (waited s)) ∧
    (s.upc = 45#6 → exec .readAck s = .next { s with sclOe := false, upc := 46#6, done := false }) ∧
    (s.upc = 46#6 → exec .readAck s = .next { waitedToEnd s with
      rdata := if s.wcnt + 1 < Config.params.delay then s.rdata else s.acc }) ∧
    (s.upc = 42#6 → exec .readNack s = .next { s with sclOe := true, upc := 43#6, done := false }) ∧
    (s.upc = 43#6 → exec .readNack s = .next (waited s)) ∧
    (s.upc = 44#6 → exec .readNack s = .next { s with sclOe := false, upc := 45#6, done := false }) ∧
    (s.upc = 45#6 → exec .readNack s = .next { waitedToEnd s with
      rdata := if s.wcnt + 1 < Config.params.delay then s.rdata else s.acc })

/-! ### Frames -/

/-- The frame of START, STOP and WRITE, which move no data in: `acc`, `rdata`, `lcmd` and the model's own fields stay;
`busy` stays but at completion; SCL changes only at `CL` and `CR`, SDA only at `DL`, `DR` and `DS`. There is no memory. -/
def Obligations.StartStopWriteFrame : Prop :=
  ∀ (i : Instr) (s t : State), i.isRead = false → exec i s = .next t →
    t.acc = s.acc ∧ t.rdata = s.rdata ∧ t.lcmd = s.lcmd ∧ t.inputs = s.inputs ∧ t.cycle = s.cycle ∧
    (t.done = false → t.busy = s.busy) ∧
    (t.sclOe ≠ s.sclOe → (prog Config.params i)[s.upc.toNat]? = some .CL ∨
      (prog Config.params i)[s.upc.toNat]? = some .CR) ∧
    (t.sdaOe ≠ s.sdaOe → (prog Config.params i)[s.upc.toNat]? = some .DL ∨
      (prog Config.params i)[s.upc.toNat]? = some .DR ∨ ∃ x, (prog Config.params i)[s.upc.toNat]? = some (.DS x)) ∧
    (t.wcnt ≠ s.wcnt → t.done = true ∨ (prog Config.params i)[s.upc.toNat]? = some .W)

/-- The frame of READ_ACK and READ_NACK: `lcmd` and the model's own fields stay; `rdata` changes only at completion and
`acc` only at `SMP`; `busy` stays but at completion; SCL changes only at `CL` and `CR`, SDA only at `DL` and `DR`. There
is no memory. -/
def Obligations.ReadFrame : Prop :=
  ∀ (i : Instr) (s t : State), i.isRead = true → exec i s = .next t →
    t.lcmd = s.lcmd ∧ t.inputs = s.inputs ∧ t.cycle = s.cycle ∧
    (t.done = false → t.rdata = s.rdata ∧ t.busy = s.busy) ∧
    (t.acc ≠ s.acc → (prog Config.params i)[s.upc.toNat]? = some .SMP) ∧
    (t.sclOe ≠ s.sclOe → (prog Config.params i)[s.upc.toNat]? = some .CL ∨
      (prog Config.params i)[s.upc.toNat]? = some .CR) ∧
    (t.sdaOe ≠ s.sdaOe → (prog Config.params i)[s.upc.toNat]? = some .DL ∨
      (prog Config.params i)[s.upc.toNat]? = some .DR) ∧
    (t.wcnt ≠ s.wcnt → t.done = true ∨ (prog Config.params i)[s.upc.toNat]? = some .W)

/-! ### Rules of the whole machine -/

/-- R20: `busy` rises with an acceptance, falls with a completion or a reset, and otherwise stays; while it is 1 no other
command is accepted. -/
def Obligations.BusyFromAcceptanceToCompletion : Prop :=
  ∀ s t : State, step s = .next t →
    t.busy = (!s.input.rst && (if s.busy then !completesNow s else s.input.cmdValid)) ∧
    (s.busy = true → s.input.rst = false → t.lcmd = s.lcmd)

/-- R21, R58: `done` is 1 after an edge exactly if the edge completed a command. -/
def Obligations.DoneExactlyAfterCompletion : Prop :=
  ∀ s t : State, step s = .next t → t.done = completesNow s

/-- R22, R75: a completing READ writes `rdata` with `acc`; no other edge but reset changes it. -/
def Obligations.RdataWrittenOnlyByReadCompletion : Prop :=
  ∀ s t : State, step s = .next t → s.input.rst = false →
    t.rdata = if completesNow s ∧ s.running.isRead = true then t.acc else s.rdata

/-- R23: only `SMP` writes `acc`, apart from reset: it shifts left and ORs in the level of SDA. -/
def Obligations.AccWrittenOnlyBySample : Prop :=
  ∀ s t : State, step s = .next t → s.input.rst = false →
    t.acc = if s.busy = true ∧ s.current = some .SMP then (s.acc <<< 1) ||| (BitVec.ofBool s.input.sdaIn).setWidth 8
            else s.acc

/-- R24: the acceptance edge copies `cmd` into `lcmd`; nothing else writes it, apart from reset. The micro-op sequence is
a function of the word and `WACK_RELEASE` alone: two builds that differ in `DELAY` have the same (R55). -/
def Obligations.LcmdWrittenOnlyByAcceptance : Prop :=
  (∀ s t : State, step s = .next t → s.input.rst = false →
    t.lcmd = if s.busy = false ∧ s.input.cmdValid = true then s.input.cmd else s.lcmd) ∧
  (∀ (P Q : Params) (w : CmdWord), P.wackRelease = Q.wackRelease → prog P (decode w) = prog Q (decode w))

/-- R17: the lines move only by the engine's own micro-ops, apart from reset; no port sets a line. -/
def Obligations.LinesMoveOnlyByMicroOps : Prop :=
  ∀ s t : State, step s = .next t → s.input.rst = false →
    (t.sclOe ≠ s.sclOe → s.busy = true ∧ (s.current = some .CL ∨ s.current = some .CR)) ∧
    (t.sdaOe ≠ s.sdaOe → s.busy = true ∧ (s.current = some .DL ∨ s.current = some .DR ∨
      ∃ x, s.current = some (.DS x)))

/-- R63: at most one line changes at any one edge but a reset edge. -/
def Obligations.AtMostOneLineChangesPerEdge : Prop :=
  ∀ s t : State, step s = .next t → s.input.rst = false → t.sclOe = s.sclOe ∨ t.sdaOe = s.sdaOe

/-- R65: wherever the spec's assembled function gives a state, the step answers it, in all nine elements of the engine. -/
def Obligations.StepIsTheWholeStep : Prop :=
  ∀ s t : State, (s.input.rst = true ∨ s.lawful = true) → wholeStep Config.params s s.input = some t →
    ∃ t', step s = .next t' ∧ engineOf t' = engineOf t

/-! ### The invariant -/

/-- Reset meets the invariant. -/
def Obligations.ResetMeetsInvariant : Prop := EngineInv State.reset

/-- Every step keeps the invariant, from every state that meets it. -/
def Obligations.StepKeepsInvariant : Prop := ∀ s t : State, EngineInv s → step s = .next t → EngineInv t

/-- R61: along every run from a state that meets the invariant (reset does), SCL is released whenever no command runs,
at every completion in particular. -/
def Obligations.SclReleasedWheneverIdle : Prop :=
  State.reset.sclOe = false ∧
  ∀ (n : Nat) (s t : State), EngineInv s → runFor n s = .next t → (t.busy = false ∨ t.done = true) → t.sclOe = false

/-- R26: `upc` is 0 at acceptance and while idle, moves by exactly 1 when a micro-op finishes, and never passes the last
micro-op, index 46 at most, with which the command completes. -/
def Obligations.UpcCountsMicroOps : Prop :=
  ∀ s t : State, EngineInv s → step s = .next t →
    (s.busy = false → t.upc = 0#6) ∧ (t.busy = false → t.upc = 0#6) ∧ s.upc.toNat ≤ 46 ∧
    (prog Config.params .readAck).length = 47 ∧
    (s.busy = true → s.input.rst = false → t.busy = false →
      s.upc.toNat + 1 = (prog Config.params s.running).length) ∧
    (s.busy = true → t.busy = true →
      t.upc.toNat = if s.current = some .W ∧ s.wcnt + 1 < Config.params.delay then s.upc.toNat else s.upc.toNat + 1)

/-- R71, I4: no `SMP` runs while the engine drives SDA, and SCL is released at every `SMP`. -/
def Obligations.SampleOnlyWithBothLinesReleased : Prop :=
  ∀ s : State, EngineInv s → s.busy = true → s.current = some .SMP → s.sdaOe = false ∧ s.sclOe = false

/-! ### Whole commands -/

/-- R55, R56: a command accepted and then undisturbed runs its micro-op sequence edge by edge: after the acceptance and
`k` more edges the lines are where the first `k` edges' micro-ops put them, `busy` holds until the last, and `done`
rises with the last and not before. -/
def Obligations.CommandRunsItsSequence : Prop :=
  ∀ (w : CmdWord) (s : State), AcceptsUndisturbed w (duration Config.params (decode w)) s →
    ∀ k, k ≤ duration Config.params (decode w) → ∃ t, runFor (k + 1) s = .next t ∧
      t.sclOe = sclAlong s.sclOe ((edgesOf Config.params (prog Config.params (decode w))).take k) ∧
      t.sdaOe = sdaAlong s.sdaOe ((edgesOf Config.params (prog Config.params (decode w))).take k) ∧
      t.busy = decide (k < duration Config.params (decode w)) ∧
      t.done = decide (k = duration Config.params (decode w)) ∧ t.lcmd = w

/-- R60: every command completes `N` edges after its acceptance, whatever SDA does, and a command offered at the next
edge is accepted there, `N + 1` edges after. `N` is the table's. -/
def Obligations.CommandCompletesAfterNEdges : Prop :=
  ∀ (w : CmdWord) (s : State) (N : Nat),
    N = (match decode w with
      | .start => 2 + Config.params.delay
      | .stop => 4 + 3 * Config.params.delay
      | .write _ => if Config.params.wackRelease then 27 + 18 * Config.params.delay
                    else 26 + 18 * Config.params.delay
      | .readAck => 29 + 18 * Config.params.delay
      | .readNack => 28 + 18 * Config.params.delay) →
    AcceptsUndisturbed w N s →
    (∀ k, k < N → ∃ t, runFor (k + 1) s = .next t ∧ t.busy = true ∧ t.done = false) ∧
    (∃ t, runFor (N + 1) s = .next t ∧ t.busy = false ∧ t.done = true ∧
      (t.input.rst = false → t.lawful = true → t.input.cmdValid = true →
        ∃ u, runFor (N + 2) s = .next u ∧ u.busy = true ∧ u.lcmd = t.input.cmd))

/-- R62: the level of `sda_oe` a completed command leaves, whatever state it started in, and SCL released; reset leaves
both released; and the level stays until a command's SDA action or a reset. -/
def Obligations.LineLevelsAtCompletion : Prop :=
  (State.reset.sclOe = false ∧ State.reset.sdaOe = false) ∧
  (∀ u v : State, step u = .next v → u.input.rst = false →
    (u.busy = true → u.current ≠ some .DL ∧ u.current ≠ some .DR ∧ ∀ x, u.current ≠ some (.DS x)) →
    v.sdaOe = u.sdaOe) ∧
  ∀ (w : CmdWord) (s : State), AcceptsUndisturbed w (duration Config.params (decode w)) s →
    ∃ t, runFor (duration Config.params (decode w) + 1) s = .next t ∧ t.sclOe = false ∧
      t.sdaOe = (match decode w with
        | .start => true
        | .stop => false
        | .write b => if Config.params.wackRelease then false else !b.getLsbD 0
        | .readAck => true
        | .readNack => false)

/-- R76: an undisturbed READ returns, in bit `7 - j`, the level of SDA in the cycle before the `SMP` edge of cell `j`,
whatever `acc` held; with every sample 1 that is 0xFF, with every sample 0 it is 0x00. -/
def Obligations.ReadReturnsSampledByte : Prop :=
  ∀ (w : CmdWord) (s : State), (decode w).isRead = true →
    AcceptsUndisturbed w (duration Config.params (decode w)) s →
    ∃ t, runFor (duration Config.params (decode w) + 1) s = .next t ∧ t.done = true ∧
      (∀ j, j < 8 → t.rdata.getLsbD (7 - j) = (s.scheduled (sampleEdge Config.params j)).sdaIn) ∧
      ((∀ j, j < 8 → (s.scheduled (sampleEdge Config.params j)).sdaIn = true) → t.rdata = 0xFF#8) ∧
      ((∀ j, j < 8 → (s.scheduled (sampleEdge Config.params j)).sdaIn = false) → t.rdata = 0x00#8)

/-- W1: WRITE v puts bit `7 - j` of `v` on SDA in cell `j`, and a READ that samples those levels returns `v`. -/
def Obligations.WriteThenReadReconstructsByte : Prop :=
  (∀ (P : Params) (v : Byte) (j : Nat), j < 8 → (prog P (.write v))[5 * j + 1]? = some (.DS (v.getLsbD (7 - j)))) ∧
  (∀ (v : Byte) (w : CmdWord) (s : State), (decode w).isRead = true →
    AcceptsUndisturbed w (duration Config.params (decode w)) s →
    (∀ j, j < 8 → (s.scheduled (sampleEdge Config.params j)).sdaIn = v.getLsbD (7 - j)) →
    ∃ t, runFor (duration Config.params (decode w) + 1) s = .next t ∧ t.rdata = v)

/-- R60, R70, R55: the control flow and the line outputs do not depend on what SDA does: two runs that differ only in
the read data path agree on everything else after any number of steps. -/
def Obligations.ControlDoesNotDependOnSda : Prop :=
  ∀ (n : Nat) (s t s' t' : State), SameButReadData s t → runFor n s = .next s' → runFor n t = .next t' →
    SameButReadData s' t'

/-- R22, R96: `rdata` keeps its value as long as there is no reset and no READ runs. -/
def Obligations.RdataPersistsUntilNextRead : Prop :=
  ∀ (n : Nat) (s t : State), NoResetFor n s →
    (∀ k, k < n → ∀ u, runFor k s = .next u → u.busy = true → u.running.isRead = false) →
    runFor n s = .next t → t.rdata = s.rdata

/-! ### The bus -/

/-- No WRITE and no READ makes a start or a stop condition, READ_ACK with its clock-first tail included (C2). The reading
of a bus condition is log entry 11, here and in the next two. -/
def Obligations.TransfersMakeNoBusCondition : Prop :=
  ∀ s t : State, EngineInv s → s.busy = true → s.input.rst = false →
    (s.running ≠ .start ∧ s.running ≠ .stop) → step s = .next t →
    drivesStart s t = false ∧ drivesStop s t = false ∧ busCondition s t = none

/-- R66 (a), (b), (c): START makes a start condition at its `DL` exactly if SDA was released before it, visible on the
bus if no slave holds SDA low; it makes none at another edge and never a stop condition. -/
def Obligations.StartMakesStartConditionIfSdaReleased : Prop :=
  ∀ s t : State, EngineInv s → s.busy = true → s.input.rst = false → s.running = .start → step s = .next t →
    drivesStart s t = (decide (s.upc = 1#6) && !s.sdaOe) ∧
    busStart s t = (decide (s.upc = 1#6) && !s.sdaOe && s.input.sdaIn) ∧ drivesStop s t = false

/-- R67: STOP makes a stop condition at its `DR`, whatever state it started in, visible on the bus if the line is then
high; it makes none at another edge and never a start condition. -/
def Obligations.StopAlwaysMakesStopCondition : Prop :=
  ∀ s t : State, EngineInv s → s.busy = true → s.input.rst = false → s.running = .stop → step s = .next t →
    drivesStop s t = decide (s.upc = 5#6) ∧ busStop s t = (decide (s.upc = 5#6) && t.input.sdaIn) ∧
    drivesStart s t = false

/-- R99: in a WRITE data cell SCL is low for `DELAY + 2` cycles and high for `DELAY + 1`; in a READ cell low for
`DELAY + 1` and high for `DELAY + 2`; SDA takes the bit's level one cycle after SCL falls. The period is `3 + 2*DELAY`. -/
def Obligations.BitCellTiming : Prop :=
  ∀ (P : Params) (x c d : Bool),
    sclTrace c (edgesOf P (writeCell x)) =
      List.replicate (P.delay + 2) true ++ List.replicate (P.delay + 1) false ∧
    sdaTrace d (edgesOf P (writeCell x)) = d :: List.replicate (2 * P.delay + 2) (!x) ∧
    sclTrace c (edgesOf P readCell) = List.replicate (P.delay + 1) true ++ List.replicate (P.delay + 2) false ∧
    lengthInEdges P (writeCell x) = bitPeriod P ∧ lengthInEdges P readCell = bitPeriod P ∧
    bitPeriod P = 3 + 2 * P.delay

/-! ### The issuer -/

/-- R50, R51, I11: the words of the pseudo-instructions, for whatever device constants the issuer takes, with the values
R51 transcribes; and that each expansion is a transaction in the model's reading of R94 and R95 (log entry 15). -/
def Obligations.PseudoInstructionsExpand : Prop :=
  (∀ (K : DeviceConstants) (hi lo : Byte), ((Pseudo.dacLoad hi lo).expand K).map encode =
    [0x000#10, 0x200#10 ||| K.dacWriteAddress.setWidth 10, 0x200#10 ||| K.dacCodeLoad.setWidth 10,
      0x200#10 ||| hi.setWidth 10, 0x200#10 ||| lo.setWidth 10, 0x100#10]) ∧
  (∀ (K : DeviceConstants) (cfg : Byte), ((Pseudo.adcConf cfg).expand K).map encode =
    [0x000#10, 0x200#10 ||| K.adcWriteAddress.setWidth 10, 0x200#10 ||| cfg.setWidth 10, 0x100#10]) ∧
  (∀ K : DeviceConstants, (Pseudo.adcRead3.expand K).map encode =
    [0x000#10, 0x200#10 ||| K.adcReadAddress.setWidth 10, 0x301#10, 0x301#10, 0x300#10, 0x100#10]) ∧
  (∀ K : DeviceConstants, (Pseudo.adcRead4.expand K).map encode =
    [0x000#10, 0x200#10 ||| K.adcReadAddress.setWidth 10, 0x301#10, 0x301#10, 0x301#10, 0x300#10, 0x100#10]) ∧
  (DeviceConstants.transcribed.dacWriteAddress = 0x3A#8 ∧ DeviceConstants.transcribed.adcWriteAddress = 0xD0#8 ∧
    DeviceConstants.transcribed.adcReadAddress = 0xD1#8 ∧ DeviceConstants.transcribed.dacCodeLoad = 0x01#8) ∧
  (∀ (K : DeviceConstants) (p : Pseudo), isTransaction (p.expand K) = true)

/-- R101: the latency of a back-to-back sequence is the sum of `N + 1`; DAC_LOAD's is `120 + 76*DELAY` with
`WACK_RELEASE = 1`, whatever the device constants. -/
def Obligations.TransactionLatency : Prop :=
  (∀ (P : Params) (is js : List Instr), latency P (is ++ js) = latency P is + latency P js) ∧
  (∀ (P : Params) (i : Instr), latency P [i] = duration P i + 1) ∧
  (∀ (P : Params) (K : DeviceConstants) (hi lo : Byte), P.wackRelease = true →
    latency P ((Pseudo.dacLoad hi lo).expand K) = 120 + 76 * P.delay)

/-- R49: every command's line of assembly, with or without a comment, is read back as the command and assembles to its
canonical word. The spelling of the printed immediate is the model's choice (log entry 9). -/
def Obligations.AssemblerReadsBackWhatItPrints : Prop :=
  ∀ (i : Instr) (c : List Char),
    parseLine (printLine i) = .ok i ∧ parseLine (printLine i ++ [' ', ';'] ++ c) = .ok i ∧
    assembleLine (printLine i) = .ok (encode i)

/-- R100: the SCL frequency is the clock's divided by the length of a data cell, WRITE's and READ's alike; R100's formula
for `DELAY` gives back the build's `DELAY`; and R100's example. -/
def Obligations.SclFrequencyIsClockOverBitPeriod : Prop :=
  (∀ (P : Params) (x : Bool) (f : Rat),
    sclFrequency P f * (edgesOf P (writeCell x)).length = f ∧ sclFrequency P f * (edgesOf P readCell).length = f ∧
    sclFrequency P f = f / (3 + 2 * P.delay)) ∧
  (∀ (P : Params) (f : Rat), 0 < f → delayForFrequency f (sclFrequency P f) = P.delay) ∧
  (∀ P : Params, P.delay = 38 → bitPeriod P = 79 ∧ |sclFrequency P 8000000 - 101300| < 50)
end

