-- ==== Sys2Proof/Laws/State.lean ====
section
/-! SUPPORT. What each update of the state leaves in each field: one lemma per field per update, true by definition. -/

namespace Sys2Proof.Machine

variable (s : State)

@[simp] theorem clearDone_busy : s.clearDone.busy = s.busy := rfl
@[simp] theorem clearDone_done : s.clearDone.done = false := rfl
@[simp] theorem clearDone_rdata : s.clearDone.rdata = s.rdata := rfl
@[simp] theorem clearDone_acc : s.clearDone.acc = s.acc := rfl
@[simp] theorem clearDone_lcmd : s.clearDone.lcmd = s.lcmd := rfl
@[simp] theorem clearDone_upc : s.clearDone.upc = s.upc := rfl
@[simp] theorem clearDone_wcnt : s.clearDone.wcnt = s.wcnt := rfl
@[simp] theorem clearDone_sclOe : s.clearDone.sclOe = s.sclOe := rfl
@[simp] theorem clearDone_sdaOe : s.clearDone.sdaOe = s.sdaOe := rfl
@[simp] theorem clearDone_inputs : s.clearDone.inputs = s.inputs := rfl
@[simp] theorem clearDone_cycle : s.clearDone.cycle = s.cycle := rfl

@[simp] theorem complete_busy : s.complete.busy = false := rfl
@[simp] theorem complete_done : s.complete.done = true := rfl
@[simp] theorem complete_rdata : s.complete.rdata = s.rdata := rfl
@[simp] theorem complete_acc : s.complete.acc = s.acc := rfl
@[simp] theorem complete_lcmd : s.complete.lcmd = s.lcmd := rfl
@[simp] theorem complete_upc : s.complete.upc = 0#6 := rfl
@[simp] theorem complete_wcnt : s.complete.wcnt = 0 := rfl
@[simp] theorem complete_sclOe : s.complete.sclOe = s.sclOe := rfl
@[simp] theorem complete_sdaOe : s.complete.sdaOe = s.sdaOe := rfl
@[simp] theorem complete_inputs : s.complete.inputs = s.inputs := rfl
@[simp] theorem complete_cycle : s.complete.cycle = s.cycle := rfl

@[simp] theorem setScl_busy (v : Bool) : (s.setScl v).busy = s.busy := rfl
@[simp] theorem setScl_done (v : Bool) : (s.setScl v).done = s.done := rfl
@[simp] theorem setScl_rdata (v : Bool) : (s.setScl v).rdata = s.rdata := rfl
@[simp] theorem setScl_acc (v : Bool) : (s.setScl v).acc = s.acc := rfl
@[simp] theorem setScl_lcmd (v : Bool) : (s.setScl v).lcmd = s.lcmd := rfl
@[simp] theorem setScl_upc (v : Bool) : (s.setScl v).upc = s.upc := rfl
@[simp] theorem setScl_wcnt (v : Bool) : (s.setScl v).wcnt = s.wcnt := rfl
@[simp] theorem setScl_sclOe (v : Bool) : (s.setScl v).sclOe = v := rfl
@[simp] theorem setScl_sdaOe (v : Bool) : (s.setScl v).sdaOe = s.sdaOe := rfl
@[simp] theorem setScl_inputs (v : Bool) : (s.setScl v).inputs = s.inputs := rfl
@[simp] theorem setScl_cycle (v : Bool) : (s.setScl v).cycle = s.cycle := rfl

@[simp] theorem setSda_busy (v : Bool) : (s.setSda v).busy = s.busy := rfl
@[simp] theorem setSda_done (v : Bool) : (s.setSda v).done = s.done := rfl
@[simp] theorem setSda_rdata (v : Bool) : (s.setSda v).rdata = s.rdata := rfl
@[simp] theorem setSda_acc (v : Bool) : (s.setSda v).acc = s.acc := rfl
@[simp] theorem setSda_lcmd (v : Bool) : (s.setSda v).lcmd = s.lcmd := rfl
@[simp] theorem setSda_upc (v : Bool) : (s.setSda v).upc = s.upc := rfl
@[simp] theorem setSda_wcnt (v : Bool) : (s.setSda v).wcnt = s.wcnt := rfl
@[simp] theorem setSda_sclOe (v : Bool) : (s.setSda v).sclOe = s.sclOe := rfl
@[simp] theorem setSda_sdaOe (v : Bool) : (s.setSda v).sdaOe = v := rfl
@[simp] theorem setSda_inputs (v : Bool) : (s.setSda v).inputs = s.inputs := rfl
@[simp] theorem setSda_cycle (v : Bool) : (s.setSda v).cycle = s.cycle := rfl

@[simp] theorem sampleSda_busy : s.sampleSda.busy = s.busy := rfl
@[simp] theorem sampleSda_done : s.sampleSda.done = s.done := rfl
@[simp] theorem sampleSda_rdata : s.sampleSda.rdata = s.rdata := rfl
@[simp] theorem sampleSda_acc : s.sampleSda.acc = shiftIn s.acc s.input.sdaIn := rfl
@[simp] theorem sampleSda_lcmd : s.sampleSda.lcmd = s.lcmd := rfl
@[simp] theorem sampleSda_upc : s.sampleSda.upc = s.upc := rfl
@[simp] theorem sampleSda_wcnt : s.sampleSda.wcnt = s.wcnt := rfl
@[simp] theorem sampleSda_sclOe : s.sampleSda.sclOe = s.sclOe := rfl
@[simp] theorem sampleSda_sdaOe : s.sampleSda.sdaOe = s.sdaOe := rfl
@[simp] theorem sampleSda_inputs : s.sampleSda.inputs = s.inputs := rfl
@[simp] theorem sampleSda_cycle : s.sampleSda.cycle = s.cycle := rfl

@[simp] theorem setWcnt_busy (n : Nat) : (s.setWcnt n).busy = s.busy := rfl
@[simp] theorem setWcnt_done (n : Nat) : (s.setWcnt n).done = s.done := rfl
@[simp] theorem setWcnt_rdata (n : Nat) : (s.setWcnt n).rdata = s.rdata := rfl
@[simp] theorem setWcnt_acc (n : Nat) : (s.setWcnt n).acc = s.acc := rfl
@[simp] theorem setWcnt_lcmd (n : Nat) : (s.setWcnt n).lcmd = s.lcmd := rfl
@[simp] theorem setWcnt_upc (n : Nat) : (s.setWcnt n).upc = s.upc := rfl
@[simp] theorem setWcnt_wcnt (n : Nat) : (s.setWcnt n).wcnt = n := rfl
@[simp] theorem setWcnt_sclOe (n : Nat) : (s.setWcnt n).sclOe = s.sclOe := rfl
@[simp] theorem setWcnt_sdaOe (n : Nat) : (s.setWcnt n).sdaOe = s.sdaOe := rfl
@[simp] theorem setWcnt_inputs (n : Nat) : (s.setWcnt n).inputs = s.inputs := rfl
@[simp] theorem setWcnt_cycle (n : Nat) : (s.setWcnt n).cycle = s.cycle := rfl

@[simp] theorem advance_busy : s.advance.busy = s.busy := rfl
@[simp] theorem advance_done : s.advance.done = s.done := rfl
@[simp] theorem advance_rdata : s.advance.rdata = s.rdata := rfl
@[simp] theorem advance_acc : s.advance.acc = s.acc := rfl
@[simp] theorem advance_lcmd : s.advance.lcmd = s.lcmd := rfl
@[simp] theorem advance_upc : s.advance.upc = s.upc + 1#6 := rfl
@[simp] theorem advance_wcnt : s.advance.wcnt = s.wcnt := rfl
@[simp] theorem advance_sclOe : s.advance.sclOe = s.sclOe := rfl
@[simp] theorem advance_sdaOe : s.advance.sdaOe = s.sdaOe := rfl
@[simp] theorem advance_inputs : s.advance.inputs = s.inputs := rfl
@[simp] theorem advance_cycle : s.advance.cycle = s.cycle := rfl

@[simp] theorem returnByte_busy : s.returnByte.busy = s.busy := rfl
@[simp] theorem returnByte_done : s.returnByte.done = s.done := rfl
@[simp] theorem returnByte_rdata : s.returnByte.rdata = s.acc := rfl
@[simp] theorem returnByte_acc : s.returnByte.acc = s.acc := rfl
@[simp] theorem returnByte_lcmd : s.returnByte.lcmd = s.lcmd := rfl
@[simp] theorem returnByte_upc : s.returnByte.upc = s.upc := rfl
@[simp] theorem returnByte_wcnt : s.returnByte.wcnt = s.wcnt := rfl
@[simp] theorem returnByte_sclOe : s.returnByte.sclOe = s.sclOe := rfl
@[simp] theorem returnByte_sdaOe : s.returnByte.sdaOe = s.sdaOe := rfl
@[simp] theorem returnByte_inputs : s.returnByte.inputs = s.inputs := rfl
@[simp] theorem returnByte_cycle : s.returnByte.cycle = s.cycle := rfl

@[simp] theorem accept_busy : s.accept.busy = true := rfl
@[simp] theorem accept_done : s.accept.done = false := rfl
@[simp] theorem accept_rdata : s.accept.rdata = s.rdata := rfl
@[simp] theorem accept_acc : s.accept.acc = s.acc := rfl
@[simp] theorem accept_lcmd : s.accept.lcmd = s.input.cmd := rfl
@[simp] theorem accept_upc : s.accept.upc = 0#6 := rfl
@[simp] theorem accept_wcnt : s.accept.wcnt = 0 := rfl
@[simp] theorem accept_sclOe : s.accept.sclOe = s.sclOe := rfl
@[simp] theorem accept_sdaOe : s.accept.sdaOe = s.sdaOe := rfl
@[simp] theorem accept_inputs : s.accept.inputs = s.inputs := rfl
@[simp] theorem accept_cycle : s.accept.cycle = s.cycle := rfl

@[simp] theorem resetEdge_busy : s.resetEdge.busy = false := rfl
@[simp] theorem resetEdge_done : s.resetEdge.done = false := rfl
@[simp] theorem resetEdge_rdata : s.resetEdge.rdata = 0x00#8 := rfl
@[simp] theorem resetEdge_acc : s.resetEdge.acc = 0x00#8 := rfl
@[simp] theorem resetEdge_lcmd : s.resetEdge.lcmd = 0#10 := rfl
@[simp] theorem resetEdge_upc : s.resetEdge.upc = 0#6 := rfl
@[simp] theorem resetEdge_wcnt : s.resetEdge.wcnt = 0 := rfl
@[simp] theorem resetEdge_sclOe : s.resetEdge.sclOe = false := rfl
@[simp] theorem resetEdge_sdaOe : s.resetEdge.sdaOe = false := rfl
@[simp] theorem resetEdge_inputs : s.resetEdge.inputs = s.inputs := rfl
@[simp] theorem resetEdge_cycle : s.resetEdge.cycle = s.cycle := rfl

@[simp] theorem tick_busy : s.tick.busy = s.busy := rfl
@[simp] theorem tick_done : s.tick.done = s.done := rfl
@[simp] theorem tick_rdata : s.tick.rdata = s.rdata := rfl
@[simp] theorem tick_acc : s.tick.acc = s.acc := rfl
@[simp] theorem tick_lcmd : s.tick.lcmd = s.lcmd := rfl
@[simp] theorem tick_upc : s.tick.upc = s.upc := rfl
@[simp] theorem tick_wcnt : s.tick.wcnt = s.wcnt := rfl
@[simp] theorem tick_sclOe : s.tick.sclOe = s.sclOe := rfl
@[simp] theorem tick_sdaOe : s.tick.sdaOe = s.sdaOe := rfl
@[simp] theorem tick_inputs : s.tick.inputs = s.inputs.tail := rfl
@[simp] theorem tick_cycle : s.tick.cycle = s.cycle + 1 := rfl

/-! The ports read the same after every update that leaves the script and the counter alone. -/

@[simp] theorem clearDone_input : s.clearDone.input = s.input := rfl
@[simp] theorem setScl_input (v : Bool) : (s.setScl v).input = s.input := rfl
@[simp] theorem setWcnt_input (n : Nat) : (s.setWcnt n).input = s.input := rfl
@[simp] theorem sampleSda_input : s.sampleSda.input = s.input := rfl
@[simp] theorem advance_input : s.advance.input = s.input := rfl
@[simp] theorem complete_input : s.complete.input = s.input := rfl
@[simp] theorem returnByte_input : s.returnByte.input = s.input := rfl

@[simp] theorem clearDone_scheduled (k : Nat) : s.clearDone.scheduled k = s.scheduled k := rfl
@[simp] theorem setScl_scheduled (v : Bool) (k : Nat) : (s.setScl v).scheduled k = s.scheduled k := rfl
@[simp] theorem setSda_scheduled (v : Bool) (k : Nat) : (s.setSda v).scheduled k = s.scheduled k := rfl
@[simp] theorem setWcnt_scheduled (n k : Nat) : (s.setWcnt n).scheduled k = s.scheduled k := rfl
@[simp] theorem sampleSda_scheduled (k : Nat) : s.sampleSda.scheduled k = s.scheduled k := rfl
@[simp] theorem advance_scheduled (k : Nat) : s.advance.scheduled k = s.scheduled k := rfl
@[simp] theorem complete_scheduled (k : Nat) : s.complete.scheduled k = s.scheduled k := rfl
@[simp] theorem returnByte_scheduled (k : Nat) : s.returnByte.scheduled k = s.scheduled k := rfl
@[simp] theorem accept_scheduled (k : Nat) : s.accept.scheduled k = s.scheduled k := rfl
@[simp] theorem resetEdge_scheduled (k : Nat) : s.resetEdge.scheduled k = s.scheduled k := rfl

/-- Ports that stand alike at every coming edge for two states with one script and one counter. -/
theorem scheduled_congr (t : State) (hi : t.inputs = s.inputs) (hc : t.cycle = s.cycle) (k : Nat) :
    t.scheduled k = s.scheduled k := by
  simp only [State.scheduled, hi, hc]

/-- A cycle passing brings every coming edge one nearer. -/
@[simp] theorem tick_scheduled (k : Nat) : s.tick.scheduled k = s.scheduled (k + 1) := by
  simp only [State.scheduled, tick_inputs, tick_cycle, List.getElem?_tail]
  rw [Nat.add_assoc s.cycle 1 k, Nat.add_comm 1 k]

/-- The coming edge's ports, but for the law on SDA, are those scheduled first. -/
theorem input_rst : s.input.rst = (s.scheduled 0).rst := by
  unfold State.input State.scheduled
  cases s.inputs <;> rfl

theorem input_cmdValid : s.input.cmdValid = (s.scheduled 0).cmdValid := by
  unfold State.input State.scheduled
  cases s.inputs <;> rfl

theorem input_cmd : s.input.cmd = (s.scheduled 0).cmd := by
  unfold State.input State.scheduled
  cases s.inputs <;> rfl

/-- While the engine releases SDA, the port reads what is scheduled. -/
theorem input_sdaIn (h : s.sdaOe = false) : s.input.sdaIn = (s.scheduled 0).sdaIn := by
  unfold State.input State.scheduled
  cases s.inputs <;> simp [h]

/-- The law holds wherever the engine releases SDA (R19). -/
theorem lawful_of_released (h : s.sdaOe = false) : s.lawful = true := by simp [State.lawful, h]

/-- The law holds of every drawn level (R19). -/
theorem lawful_of_no_script (h : s.inputs = []) : s.lawful = true := by
  cases hs : s.sdaOe <;> simp [State.lawful, State.input, h, hs]

end Sys2Proof.Machine
end

