-- ==== Sys2Proof/Laws/Ops.lean ====
section
/-! SUPPORT. What the shared operations can do, said once: a micro-op's edge, one edge of a running command, and the
commands' arms as that operation over `prog`. -/

namespace Sys2Proof.Machine

variable (P : Params) (u : MicroOp) (s : State)

/-! What no micro-op touches. -/

@[simp] theorem effect_busy : (u.effect P s).busy = s.busy := by
  cases u <;> simp [MicroOp.effect]
  split <;> rfl
@[simp] theorem effect_done : (u.effect P s).done = s.done := by
  cases u <;> simp [MicroOp.effect]
  split <;> rfl
@[simp] theorem effect_rdata : (u.effect P s).rdata = s.rdata := by
  cases u <;> simp [MicroOp.effect]
  split <;> rfl
@[simp] theorem effect_lcmd : (u.effect P s).lcmd = s.lcmd := by
  cases u <;> simp [MicroOp.effect]
  split <;> rfl
@[simp] theorem effect_upc : (u.effect P s).upc = s.upc := by
  cases u <;> simp [MicroOp.effect]
  split <;> rfl
@[simp] theorem effect_inputs : (u.effect P s).inputs = s.inputs := by
  cases u <;> simp [MicroOp.effect]
  split <;> rfl
@[simp] theorem effect_cycle : (u.effect P s).cycle = s.cycle := by
  cases u <;> simp [MicroOp.effect]
  split <;> rfl

/-! What a micro-op does to the lines, the accumulator and the wait counter. -/

@[simp] theorem effect_sclOe : (u.effect P s).sclOe = sclAfter s.sclOe u := by
  cases u <;> simp [MicroOp.effect, sclAfter]
  split <;> rfl
@[simp] theorem effect_sdaOe : (u.effect P s).sdaOe = sdaAfter s.sdaOe u := by
  cases u <;> simp [MicroOp.effect, sdaAfter]
  split <;> rfl
@[simp] theorem effect_acc :
    (u.effect P s).acc = if u = .SMP then shiftIn s.acc s.input.sdaIn else s.acc := by
  cases u <;> simp [MicroOp.effect]
  split <;> rfl
@[simp] theorem effect_wcnt :
    (u.effect P s).wcnt = if u = .W then (if s.wcnt + 1 < P.delay then s.wcnt + 1 else 0) else s.wcnt := by
  cases u <;> simp [MicroOp.effect]
  split <;> rfl

/-- Only a wait with edges left does not finish. -/
theorem finishes_eq : u.finishes P s = !(decide (u = .W) && decide (s.wcnt + 1 < P.delay)) := by
  cases u <;> simp [MicroOp.finishes]

@[simp] theorem clearDone_finishes : u.finishes P s.clearDone = u.finishes P s := by
  cases u <;> rfl

/-- `DELAY` is positive (R5). -/
theorem one_le_delay : 1 ≤ Config.params.delay := Nat.le_add_left 1 Config.extraDelay

/-- What one edge leaves, given the micro-op and what follows it: the next state of `runCommand`. -/
def edgeResult (atEnd : State → State) (rest : List MicroOp) : State :=
  if u.finishes P s then
    if rest.isEmpty then atEnd (u.effect P s.clearDone).complete else (u.effect P s.clearDone).advance
  else u.effect P s.clearDone

/-- One edge of a running command answers a next state exactly where `upc` indexes a micro-op. -/
theorem runCommand_of_drop {us rest : List MicroOp} {atEnd : State → State} (h : us.drop s.upc.toNat = u :: rest) :
    runCommand P us atEnd s = .next (edgeResult P u s atEnd rest) := by
  simp only [runCommand, h, edgeResult]

/-- Everything one edge of a running command can do. -/
theorem runCommand_next {us : List MicroOp} {atEnd : State → State} {s t : State}
    (h : runCommand P us atEnd s = .next t) :
    ∃ u rest, us.drop s.upc.toNat = u :: rest ∧ t = edgeResult P u s atEnd rest := by
  unfold runCommand at h
  split at h
  · cases h
  · next u rest hd => exact ⟨u, rest, hd, (Host.Outcome.next.inj h).symm⟩

/-- Past the sequence, one edge of a running command stops by name. -/
theorem runCommand_past {us : List MicroOp} {atEnd : State → State} (h : us.length ≤ s.upc.toNat) :
    runCommand P us atEnd s = .fault .upcOutOfRange := by
  simp only [runCommand, List.drop_eq_nil_of_le h]

/-- What completion does beyond the flags, by command (R57, R75). -/
def atEndOf (i : Instr) : State → State := if i.isRead then State.returnByte else id

/-- Every arm is the shared operation over the command's sequence. -/
theorem exec_eq (i : Instr) : exec i s = runCommand Config.params (prog Config.params i) (atEndOf i) s := by
  cases i <;> rfl

/-- A command answers a next state wherever `upc` indexes a micro-op of it. -/
theorem exec_of_drop {i : Instr} {u : MicroOp} {rest : List MicroOp}
    (h : (prog Config.params i).drop s.upc.toNat = u :: rest) :
    exec i s = .next (edgeResult Config.params u s (atEndOf i) rest) := by
  rw [exec_eq, runCommand_of_drop _ _ _ h]

/-- Everything a command's meaning can do. -/
theorem exec_next {i : Instr} {s t : State} (h : exec i s = .next t) :
    ∃ u rest, (prog Config.params i).drop s.upc.toNat = u :: rest ∧
      t = edgeResult Config.params u s (atEndOf i) rest := by
  rw [exec_eq] at h
  exact runCommand_next _ h

/-- No command's meaning refuses. -/
theorem exec_not_refused (i : Instr) (r : Refusal) : exec i s ≠ .refused r := by
  rw [exec_eq]
  unfold runCommand
  split <;> simp

/-- The current micro-op and the rest of the sequence, read by index. -/
theorem drop_eq_cons {u : MicroOp} {us rest : List MicroOp} {n : Nat} (h : us.drop n = u :: rest) :
    us[n]? = some u ∧ n + rest.length + 1 = us.length := by
  have hl := congrArg List.length h
  simp only [List.length_drop, List.length_cons] at hl
  refine ⟨?_, by omega⟩
  have := List.getElem?_drop (xs := us) (i := n) (j := 0)
  simpa [h] using this.symm

/-- An index inside the sequence names a micro-op. -/
theorem drop_of_getElem? {us : List MicroOp} {n : Nat} (h : us[n]? = some u) :
    ∃ rest, us.drop n = u :: rest := by
  obtain ⟨hn, rfl⟩ := List.getElem?_eq_some_iff.mp h
  exact ⟨us.drop (n + 1), List.drop_eq_getElem_cons hn⟩

/-- What completion adds leaves everything but the returned byte. -/
@[simp] theorem atEndOf_busy (i : Instr) : (atEndOf i s).busy = s.busy := by cases i <;> rfl
@[simp] theorem atEndOf_done (i : Instr) : (atEndOf i s).done = s.done := by cases i <;> rfl
@[simp] theorem atEndOf_acc (i : Instr) : (atEndOf i s).acc = s.acc := by cases i <;> rfl
@[simp] theorem atEndOf_lcmd (i : Instr) : (atEndOf i s).lcmd = s.lcmd := by cases i <;> rfl
@[simp] theorem atEndOf_upc (i : Instr) : (atEndOf i s).upc = s.upc := by cases i <;> rfl
@[simp] theorem atEndOf_wcnt (i : Instr) : (atEndOf i s).wcnt = s.wcnt := by cases i <;> rfl
@[simp] theorem atEndOf_sclOe (i : Instr) : (atEndOf i s).sclOe = s.sclOe := by cases i <;> rfl
@[simp] theorem atEndOf_sdaOe (i : Instr) : (atEndOf i s).sdaOe = s.sdaOe := by cases i <;> rfl
@[simp] theorem atEndOf_inputs (i : Instr) : (atEndOf i s).inputs = s.inputs := by cases i <;> rfl
@[simp] theorem atEndOf_cycle (i : Instr) : (atEndOf i s).cycle = s.cycle := by cases i <;> rfl
@[simp] theorem atEndOf_rdata (i : Instr) :
    (atEndOf i s).rdata = if i.isRead then s.acc else s.rdata := by cases i <;> rfl

/-! One edge of a running command, field by field. -/

variable (i : Instr) (rest : List MicroOp)

@[simp] theorem edgeResult_lcmd : (edgeResult P u s (atEndOf i) rest).lcmd = s.lcmd := by
  unfold edgeResult; split <;> [split; skip] <;> simp
@[simp] theorem edgeResult_inputs : (edgeResult P u s (atEndOf i) rest).inputs = s.inputs := by
  unfold edgeResult; split <;> [split; skip] <;> simp
@[simp] theorem edgeResult_cycle : (edgeResult P u s (atEndOf i) rest).cycle = s.cycle := by
  unfold edgeResult; split <;> [split; skip] <;> simp
@[simp] theorem edgeResult_sclOe : (edgeResult P u s (atEndOf i) rest).sclOe = sclAfter s.sclOe u := by
  unfold edgeResult; split <;> [split; skip] <;> simp
@[simp] theorem edgeResult_sdaOe : (edgeResult P u s (atEndOf i) rest).sdaOe = sdaAfter s.sdaOe u := by
  unfold edgeResult; split <;> [split; skip] <;> simp
@[simp] theorem edgeResult_acc :
    (edgeResult P u s (atEndOf i) rest).acc = if u = .SMP then shiftIn s.acc s.input.sdaIn else s.acc := by
  unfold edgeResult; split <;> [split; skip] <;> simp
@[simp] theorem edgeResult_done :
    (edgeResult P u s (atEndOf i) rest).done = (u.finishes P s && rest.isEmpty) := by
  unfold edgeResult; split <;> [split; skip] <;> simp_all
@[simp] theorem edgeResult_busy :
    (edgeResult P u s (atEndOf i) rest).busy = (s.busy && !(u.finishes P s && rest.isEmpty)) := by
  unfold edgeResult; split <;> [split; skip] <;> simp_all
@[simp] theorem edgeResult_upc :
    (edgeResult P u s (atEndOf i) rest).upc =
      if u.finishes P s then (if rest.isEmpty then 0#6 else s.upc + 1#6) else s.upc := by
  unfold edgeResult; split <;> [split; skip] <;> simp
@[simp] theorem edgeResult_wcnt :
    (edgeResult P u s (atEndOf i) rest).wcnt =
      if u.finishes P s && rest.isEmpty then 0
      else if u = .W then (if s.wcnt + 1 < P.delay then s.wcnt + 1 else 0) else s.wcnt := by
  unfold edgeResult; split <;> [split; skip] <;> simp_all <;> rfl
@[simp] theorem edgeResult_rdata :
    (edgeResult P u s (atEndOf i) rest).rdata =
      if (u.finishes P s && rest.isEmpty) && i.isRead then
        (if u = .SMP then shiftIn s.acc s.input.sdaIn else s.acc) else s.rdata := by
  unfold edgeResult; split <;> [split; skip] <;> simp_all

end Sys2Proof.Machine
end

