-- ==== Sys2Proof/Laws/PerInstr.lean ====
section
/-! SUPPORT. Statements about every command, one lemma per constructor. -/

namespace Sys2Proof.Laws

open Sys2Proof.Machine

/-! The last micro-op of a command's sequence is a wait (R57). -/

def EndsWithWait.Statement (i : Instr) : Prop := ∀ P : Params, (prog P i).getLast? = some .W

theorem EndsWithWait.start : EndsWithWait.Statement .start := fun _ => rfl
theorem EndsWithWait.stop : EndsWithWait.Statement .stop := fun _ => rfl
theorem EndsWithWait.write (b : Byte) : EndsWithWait.Statement (.write b) := by
  intro P
  simp only [prog, writeProg, writeAckSlot]
  split <;> simp
theorem EndsWithWait.readNack : EndsWithWait.Statement .readNack := fun _ => rfl
theorem EndsWithWait.readAck : EndsWithWait.Statement .readAck := fun _ => rfl

/-! A command's sequence has 3 to 47 micro-ops (R26, R55). -/

def LengthBound.Statement (i : Instr) : Prop := ∀ P : Params, 3 ≤ (prog P i).length ∧ (prog P i).length ≤ 47

theorem LengthBound.start : LengthBound.Statement .start := fun _ => by simp only [prog]; decide
theorem LengthBound.stop : LengthBound.Statement .stop := fun _ => by simp only [prog]; decide
theorem LengthBound.write (b : Byte) : LengthBound.Statement (.write b) := by
  intro P
  simp only [prog, writeProg, writeAckSlot, writeCells, writeCell]
  split <;> simp
theorem LengthBound.readNack : LengthBound.Statement .readNack := fun _ => by simp only [prog]; decide
theorem LengthBound.readAck : LengthBound.Statement .readAck := fun _ => by simp only [prog]; decide

end Sys2Proof.Laws

namespace Sys2Proof.Machine

open Sys2Proof.Laws

theorem prog_getLast (P : Params) (i : Instr) : (prog P i).getLast? = some .W :=
  match i with
  | .start => EndsWithWait.start P
  | .stop => EndsWithWait.stop P
  | .write b => EndsWithWait.write b P
  | .readNack => EndsWithWait.readNack P
  | .readAck => EndsWithWait.readAck P

theorem prog_length (P : Params) (i : Instr) : 3 ≤ (prog P i).length ∧ (prog P i).length ≤ 47 :=
  match i with
  | .start => LengthBound.start P
  | .stop => LengthBound.stop P
  | .write b => LengthBound.write b P
  | .readNack => LengthBound.readNack P
  | .readAck => LengthBound.readAck P

/-- A micro-op with nothing after it is the closing wait. -/
theorem last_is_wait {P : Params} {i : Instr} {n : Nat} {u : MicroOp} (h : (prog P i).drop n = [u]) : u = .W := by
  have h2 := congrArg List.getLast? h
  rw [List.getLast?_drop, prog_getLast] at h2
  split at h2
  · cases h2
  · exact (Option.some.inj h2).symm

/-- An index inside a sequence splits it there. -/
theorem drop_of_lt {us : List MicroOp} {n : Nat} (h : n < us.length) : ∃ u rest, us.drop n = u :: rest :=
  ⟨_, _, List.drop_eq_getElem_cons h⟩

/-- The current micro-op and the rest of the running command's sequence. -/
theorem drop_of_current {s : State} {u : MicroOp} (h : s.current = some u) :
    ∃ rest, (prog Config.params s.running).drop s.upc.toNat = u :: rest :=
  drop_of_getElem? u h

theorem current_of_drop {s : State} {u : MicroOp} {rest : List MicroOp}
    (h : (prog Config.params s.running).drop s.upc.toNat = u :: rest) : s.current = some u :=
  (drop_eq_cons h).1

end Sys2Proof.Machine
end

