-- ==== Sys2Proof/Laws/Step.lean ====
section
/-! SUPPORT. What a step can do, said once, and the machine's runs. -/

namespace Sys2Proof.Machine

open Sys2Proof.Safety

/-- The five things an edge can be (R80). -/
inductive EdgeCase (s t : State) : Prop where
  /-- a reset edge -/
  | reset (rst : s.input.rst = true) (eq : t = s.resetEdge.tick)
  /-- one edge of the running command -/
  | run (rst : s.input.rst = false) (lawful : s.lawful = true) (busy : s.busy = true) (u : MicroOp)
      (rest : List MicroOp) (at_upc : (prog Config.params s.running).drop s.upc.toNat = u :: rest)
      (eq : t = (edgeResult Config.params u s (atEndOf s.running) rest).tick)
  /-- an acceptance -/
  | accept (rst : s.input.rst = false) (lawful : s.lawful = true) (busy : s.busy = false)
      (valid : s.input.cmdValid = true) (eq : t = s.accept.tick)
  /-- an idle edge -/
  | idle (rst : s.input.rst = false) (lawful : s.lawful = true) (busy : s.busy = false)
      (valid : s.input.cmdValid = false) (eq : t = s.clearDone.tick)

/-- Everything a step that answers a next state can have done. -/
theorem step_cases {s t : State} (h : step s = .next t) : EdgeCase s t := by
  unfold step edge at h
  split at h
  · next hr => exact .reset hr (Host.Outcome.next.inj h).symm
  next hr =>
  have hr : s.input.rst = false := by simpa using hr
  split at h
  · cases h
  next hl =>
  have hl : s.lawful = true := by simpa using hl
  split at h
  · next hb =>
    cases he : exec s.running s with
    | fault r => rw [he] at h; cases h
    | refused r => rw [he] at h; cases h
    | next v =>
      rw [he] at h
      obtain ⟨u, rest, hd, rfl⟩ := exec_next he
      exact .run hr hl hb u rest hd (Host.Outcome.next.inj h).symm
  next hb =>
  have hb : s.busy = false := by simpa using hb
  split at h
  · next hv => exact .accept hr hl hb hv (Host.Outcome.next.inj h).symm
  · next hv => exact .idle hr hl hb (by simpa using hv) (Host.Outcome.next.inj h).symm

theorem step_reset {s : State} (h : s.input.rst = true) : step s = .next s.resetEdge.tick := by
  simp [step, edge, h]

theorem step_run {s : State} {u : MicroOp} {rest : List MicroOp} (hr : s.input.rst = false) (hl : s.lawful = true)
    (hb : s.busy = true) (hd : (prog Config.params s.running).drop s.upc.toNat = u :: rest) :
    step s = .next (edgeResult Config.params u s (atEndOf s.running) rest).tick := by
  simp [step, edge, hr, hl, hb, exec_of_drop s hd, mapNext]

theorem step_accept {s : State} (hr : s.input.rst = false) (hl : s.lawful = true) (hb : s.busy = false)
    (hv : s.input.cmdValid = true) : step s = .next s.accept.tick := by
  simp [step, edge, hr, hl, hb, hv]

theorem step_idle {s : State} (hr : s.input.rst = false) (hl : s.lawful = true) (hb : s.busy = false)
    (hv : s.input.cmdValid = false) : step s = .next s.clearDone.tick := by
  simp [step, edge, hr, hl, hb, hv]

/-- Every step lets one cycle pass. -/
theorem step_inputs {s t : State} (h : step s = .next t) : t.inputs = s.inputs.tail := by
  cases step_cases h <;> (next e => subst e; simp)

theorem step_cycle {s t : State} (h : step s = .next t) : t.cycle = s.cycle + 1 := by
  cases step_cases h <;> (next e => subst e; simp)

theorem step_scheduled {s t : State} (h : step s = .next t) (k : Nat) : t.scheduled k = s.scheduled (k + 1) := by
  rw [← tick_scheduled s k]
  exact scheduled_congr _ _ (by simp [step_inputs h]) (by simp [step_cycle h]) k

end Sys2Proof.Machine

namespace Sys2Proof.Safety

open Sys2Proof.Machine

@[simp] theorem runFor_zero (s : State) : runFor 0 s = .next s := rfl

/-- A run's first step, by its outcome. -/
theorem runFor_succ {s t : State} (n : Nat) (h : step s = .next t) : runFor (n + 1) s = runFor n t := by
  have h' : core.step s = .next t := h
  simp only [runFor, Host.Core.run, h']
  rfl

theorem runFor_succ_fault {s : State} {r : Fault} (n : Nat) (h : step s = .fault r) :
    runFor (n + 1) s = .fault r := by
  have h' : core.step s = .fault r := h
  simp only [runFor, Host.Core.run, h']
  rfl

theorem runFor_succ_refused {s : State} {r : Refusal} (n : Nat) (h : step s = .refused r) :
    runFor (n + 1) s = .refused r := by
  have h' : core.step s = .refused r := h
  simp only [runFor, Host.Core.run, h']
  rfl

/-- A run of `n + 1` steps that answers a state answers one after the first step. -/
theorem runFor_succ_next {s t : State} {n : Nat} (h : runFor (n + 1) s = .next t) :
    ∃ u, step s = .next u ∧ runFor n u = .next t := by
  cases hs : step s with
  | next u => exact ⟨u, rfl, (runFor_succ n hs).symm.trans h⟩
  | fault r => rw [runFor_succ_fault n hs] at h; cases h
  | refused r => rw [runFor_succ_refused n hs] at h; cases h

/-- Runs compose. -/
theorem runFor_add {s t : State} {m : Nat} (n : Nat) (h : runFor m s = .next t) : runFor (m + n) s = runFor n t := by
  induction m generalizing s with
  | zero => cases h; rw [Nat.zero_add]
  | succ m ih =>
    obtain ⟨u, hu, hr⟩ := runFor_succ_next h
    rw [Nat.add_right_comm, runFor_succ _ hu, ih hr]

/-- A run's last step. -/
theorem runFor_last {s t : State} {n : Nat} (h : runFor n s = .next t) : runFor (n + 1) s = step t := by
  rw [runFor_add 1 h]
  cases ht : step t with
  | next v => rw [runFor_succ 0 ht]; rfl
  | fault r => exact runFor_succ_fault 0 ht
  | refused r => exact runFor_succ_refused 0 ht

/-- Along a run the script runs down one entry a step. -/
theorem runFor_scheduled {s t : State} {n : Nat} (h : runFor n s = .next t) (k : Nat) :
    t.scheduled k = s.scheduled (k + n) := by
  induction n generalizing s with
  | zero => cases h; rfl
  | succ n ih =>
    obtain ⟨u, hu, hr⟩ := runFor_succ_next h
    rw [ih hr, step_scheduled hu, Nat.add_assoc]

theorem runFor_inputs {s t : State} {n : Nat} (h : runFor n s = .next t) : t.inputs = s.inputs.drop n := by
  induction n generalizing s with
  | zero => cases h; rfl
  | succ n ih =>
    obtain ⟨u, hu, hr⟩ := runFor_succ_next h
    rw [ih hr, step_inputs hu, List.drop_tail]

/-- A predicate every step keeps is kept along every run. -/
theorem runFor_keeps {I : State → Prop} (hI : ∀ s t, I s → step s = .next t → I t) {s t : State} {n : Nat}
    (hs : I s) (h : runFor n s = .next t) : I t := by
  induction n generalizing s with
  | zero => cases h; exact hs
  | succ n ih =>
    obtain ⟨u, hu, hr⟩ := runFor_succ_next h
    exact ih (hI _ _ hs hu) hr

end Sys2Proof.Safety
end

