-- ==== Sys2Proof/Laws/Timing.lean ====
section
/-! SUPPORT. The small laws of sequences edge by edge, of the line levels along them, and of the accumulator's shift. -/

namespace Sys2Proof.Machine

variable (P : Params) (u : MicroOp) (us vs : List MicroOp) (v : Bool)

@[simp] theorem edgesOf_nil : edgesOf P [] = [] := rfl

theorem edgesOf_cons : edgesOf P (u :: us) = List.replicate (u.edges P) u ++ edgesOf P us := by simp [edgesOf]

theorem edgesOf_append : edgesOf P (us ++ vs) = edgesOf P us ++ edgesOf P vs := by simp [edgesOf]

@[simp] theorem lengthInEdges_nil : lengthInEdges P [] = 0 := rfl

theorem lengthInEdges_cons : lengthInEdges P (u :: us) = u.edges P + lengthInEdges P us := by simp [lengthInEdges]

theorem lengthInEdges_append : lengthInEdges P (us ++ vs) = lengthInEdges P us + lengthInEdges P vs := by
  simp [lengthInEdges]

/-- A sequence has as many entries edge by edge as it takes edges. -/
theorem edgesOf_length : (edgesOf P us).length = lengthInEdges P us := by
  induction us with
  | nil => rfl
  | cons u us ih => rw [edgesOf_cons, List.length_append, List.length_replicate, ih, lengthInEdges_cons]

/-- Where a sequence splits at a micro-op, so does its expansion. -/
theorem edgesOf_split {us rest : List MicroOp} {u : MicroOp} {n : Nat} (h : us.drop n = u :: rest) :
    edgesOf P us = edgesOf P (us.take n) ++ (List.replicate (u.edges P) u ++ edgesOf P rest) := by
  rw [← edgesOf_cons, ← h, ← edgesOf_append, List.take_append_drop]

/-- Every micro-op takes an edge (R5, R52). -/
theorem edges_pos : 0 < u.edges Config.params := by
  have := one_le_delay
  cases u <;> simp only [MicroOp.edges] <;> omega

@[simp] theorem sclAlong_nil : sclAlong v [] = v := rfl

theorem sclAlong_append : sclAlong v (us ++ vs) = sclAlong (sclAlong v us) vs := by simp [sclAlong]

@[simp] theorem sdaAlong_nil : sdaAlong v [] = v := rfl

theorem sdaAlong_append : sdaAlong v (us ++ vs) = sdaAlong (sdaAlong v us) vs := by simp [sdaAlong]

/-- Doing a micro-op's line action again changes nothing. -/
theorem sclAfter_sclAfter : sclAfter (sclAfter v u) u = sclAfter v u := by cases u <;> rfl

theorem sdaAfter_sdaAfter : sdaAfter (sdaAfter v u) u = sdaAfter v u := by cases u <;> rfl

/-- The bits of the accumulator after a shift (R74). -/
theorem shiftIn_bits : ∀ (a : Byte) (b : Bool),
    (shiftIn a b).getLsbD 0 = b ∧ ∀ k, k < 7 → (shiftIn a b).getLsbD (k + 1) = a.getLsbD k := by
  decide +kernel

end Sys2Proof.Machine
end

