-- ==== Sys2Proof/Tests/Slice0.lean ====
section
/-! SUPPORT. Tests of the model against words and vectors of the spec (95_test_vectors.md and the worked examples), the
smoke tests of the well-formedness checks, and a witness for every statement that has hypotheses. -/

namespace Sys2Proof.Tests

open Sys2Proof.Machine Sys2Proof.Safety

/-! ### Small states -/

/-- Ports at rest with SDA low: lawful in every state. -/
def quiet : PortIn := { rst := false, cmdValid := false, cmd := 0#10, sdaIn := false }

/-- Ports in reset. -/
def inReset : PortIn := { rst := true, cmdValid := true, cmd := 0x23A#10, sdaIn := false }

/-- An idle engine after reset whose coming ports are `ps`. -/
def idle (ps : List PortIn) : State := { State.reset with inputs := ps }

/-- An engine in the midst of the word `w`, at micro-op `k`, its lines as given, in a quiet cycle. -/
def midst (w : CmdWord) (k : BitVec 6) (scl sda : Bool) : State :=
  { State.reset with busy := true, lcmd := w, upc := k, sclOe := scl, sdaOe := sda, inputs := [quiet] }

/-- `DELAY = 1`, `WACK_RELEASE = 1`. -/
def P1 : Params := { delay := 1, wackRelease := true }

/-- `DELAY = 2`, `WACK_RELEASE = 0`. -/
def P2 : Params := { delay := 2, wackRelease := false }

/-! ### Well-formedness: an ill-formed term for each check -/

theorem test_delay_zero_refused : Params.wf { delay := 0, wackRelease := true } = false := by decide
theorem test_delay_one_accepted : P1.wf = true := by decide
theorem test_word_too_wide_refused : wordFits 1024 = false ∧ wordFits 1023 = true := by decide
theorem test_reserved_bits_seen : reservedZero 0x0FF#10 = false ∧ reservedZero 0x3FE#10 = false ∧
    reservedZero 0x2FF#10 = true ∧ reservedZero 0x301#10 = true := by decide
theorem test_immediate_too_large_refused : immFits 256 = false ∧ immFits 255 = true := by decide
theorem test_every_byte_well_formed : (Instr.write 0xFF#8).wf = true := by decide
theorem test_config_well_formed : Config.params.wf = true := by simp [Params.wf, one_le_delay]

/-! ### Decoding: words written out from R43's patterns -/

theorem test_decode_start : decode 0b0000000000#10 = .start ∧ decode 0b0011111111#10 = .start := by decide
theorem test_decode_stop : decode 0b0100000000#10 = .stop ∧ decode 0b0110101011#10 = .stop := by decide
theorem test_decode_write : decode 0b1000111010#10 = .write 0x3A#8 ∧ decode 0b1011010001#10 = .write 0xD1#8 := by
  decide
theorem test_decode_readNack : decode 0b1100000000#10 = .readNack ∧ decode 0b1111111110#10 = .readNack := by decide
theorem test_decode_readAck : decode 0b1100000001#10 = .readAck ∧ decode 0b1111111111#10 = .readAck := by decide
theorem test_encode_words : encode .start = 0x000#10 ∧ encode .stop = 0x100#10 ∧
    encode (.write 0x3A#8) = 0x23A#10 ∧ encode .readNack = 0x300#10 ∧ encode .readAck = 0x301#10 := by decide
theorem test_table_words : decodeTableWord 16 0x23A = some (.write 0x3A#8) ∧ decodeTableWord 16 0x400 = none ∧
    decodeTableWord 16 0x301 = some .readAck := by decide
theorem test_wide_number_rejected : (match decodeNat 0x400 with | .error .notTenBits => true | .ok _ => false) = true := by
  decide

/-! ### One edge of each command, with the spec's figures -/

/-- 95 P1, edge 3: START's `DL`. -/
theorem test_start_drives_sda :
    runCommand P1 startProg id (midst 0x000#10 1#6 false false) =
      .next { midst 0x000#10 2#6 false true with busy := true } := by rfl

/-- 95 V-S2: with `DELAY = 2` START's `W` first counts, then completes. -/
theorem test_start_waits_then_completes :
    runCommand P2 startProg id (midst 0x000#10 2#6 false true) =
      .next { midst 0x000#10 2#6 false true with wcnt := 1 } ∧
    runCommand P2 startProg id { midst 0x000#10 2#6 false true with wcnt := 1 } =
      .next { midst 0x000#10 0#6 false true with busy := false, done := true } := ⟨rfl, rfl⟩

/-- 95 P1, edges 6 and 11: STOP's `CL` and `DR`. -/
theorem test_stop_lines :
    runCommand P1 stopProg id (midst 0x100#10 0#6 false true) = .next (midst 0x100#10 1#6 true true) ∧
    runCommand P1 stopProg id (midst 0x100#10 5#6 false true) = .next (midst 0x100#10 6#6 false false) := ⟨rfl, rfl⟩

/-- 95 V-W1: WRITE 0x3A releases SDA at k12 (cell 2) and drives it at k27 (cell 5). -/
theorem test_write_data_bits :
    runCommand P1 (writeProg P1 0x3A#8) id (midst 0x23A#10 11#6 true true) = .next (midst 0x23A#10 12#6 true false) ∧
    runCommand P1 (writeProg P1 0x3A#8) id (midst 0x23A#10 26#6 true false) = .next (midst 0x23A#10 27#6 true true) :=
  ⟨rfl, rfl⟩

/-- 95 V-W1: the slot's second edge releases SDA (k42) with `WACK_RELEASE = 1` and waits with 0. -/
theorem test_write_ack_slot :
    runCommand P1 (writeProg P1 0x3A#8) id (midst 0x23A#10 41#6 true true) = .next (midst 0x23A#10 42#6 true false) ∧
    runCommand P2 (writeProg P2 0x3A#8) id (midst 0x23A#10 41#6 true true) =
      .next { midst 0x23A#10 41#6 true true with wcnt := 1 } := ⟨rfl, rfl⟩

/-- 95 V-R1: after 0x27 a sample of 0 leaves 0x4E. -/
theorem test_read_sample :
    runCommand P1 readAckProg State.returnByte { midst 0x301#10 36#6 false false with acc := 0x27#8 } =
      .next { midst 0x301#10 37#6 false false with acc := 0x4E#8 } := by rfl

/-- 95 V-R1, k44: READ_ACK's tail drives SDA after SCL (C2). -/
theorem test_readAck_acknowledges :
    runCommand P1 readAckProg State.returnByte (midst 0x301#10 43#6 true false) =
      .next (midst 0x301#10 44#6 true true) := by rfl

/-- 95 V-R2, k46: READ_NACK completes with `rdata = 0x56`, SDA released. -/
theorem test_readNack_returns_byte :
    runCommand P1 readNackProg State.returnByte { midst 0x300#10 45#6 false false with acc := 0x56#8 } =
      .next { midst 0x300#10 0#6 false false with busy := false, done := true, acc := 0x56#8, rdata := 0x56#8 } := by rfl

/-- 95 V-R5: `SMP` arithmetic. -/
theorem test_sample_arithmetic : shiftIn 0xA5#8 true = 0x4B#8 ∧ shiftIn 0xFF#8 false = 0xFE#8 ∧
    shiftIn 0x80#8 true = 0x01#8 ∧ shiftIn 0x00#8 false = 0x00#8 ∧ shiftIn 0x7F#8 true = 0xFF#8 := by decide

/-- R72's worked example: samples 1,0,0,1,1,1,0,0 assemble to 0x9C, whatever `acc` held (95 V-R4). -/
theorem test_assemble : assembleByte 0x5A#8 (cellBit 0x9C#8) = 0x9C#8 ∧ assembleByte 0xFF#8 (cellBit 0x9C#8) = 0x9C#8 := by
  decide

/-! ### The edges, the bus and the issuer -/

/-- 95 V-X1: reset at the edge that would complete START: no `done`, lines released. -/
theorem test_reset_mid_start :
    step { midst 0x000#10 2#6 false true with inputs := [inReset] } = .next { State.reset with cycle := 1 } := by rfl

/-- 95 P1, edge 1. -/
theorem test_accept_start :
    step (idle [offering 0x000#10 true]) = .next { State.reset with busy := true, cycle := 1 } := by rfl

/-- R19, I4: SDA reads high while the engine drives it low. -/
theorem test_broken_law_faults :
    step { midst 0x000#10 2#6 false true with inputs := [{ quiet with sdaIn := true }] } = .fault .wiredAndBroken := by
  rfl

/-- The host's probe: a placed word is the next step's command. -/
theorem test_withFetchWord_runs :
    step (State.reset.withFetchWord 16 0x23A) =
      .next { State.reset with busy := true, lcmd := 0x23A#10, upc := 1#6, sclOe := true, cycle := 1 } := by rfl

/-- 95 V-S1 and V-P1: the start condition at START's `DL`, the stop condition at STOP's `DR`. -/
theorem test_bus_conditions :
    drivesStart (midst 0x000#10 1#6 false false) (midst 0x000#10 2#6 false true) = true ∧
    drivesStop (midst 0x100#10 5#6 false true) (midst 0x100#10 6#6 false false) = true ∧
    drivesStart (midst 0x000#10 1#6 false true) (midst 0x000#10 2#6 false true) = false := by decide

/-- R60's table and 95 section 3, `DELAY = 4`. -/
theorem test_durations : ([Instr.start, .stop, .write 0#8, .readNack, .readAck].map
    (duration { delay := 4, wackRelease := true })) = [6, 16, 99, 100, 101] ∧
    duration { delay := 4, wackRelease := false } (.write 0#8) = 98 := by decide

/-- 95 P2, `DELAY = 1`: acceptance and completion edges of DAC_LOAD 0x12, 0x34. -/
theorem test_dac_load_edges :
    acceptanceEdges P1 1 (Pseudo.expand .transcribed (.dacLoad 0x12#8 0x34#8)) = [1, 5, 51, 97, 143, 189] ∧
    completionEdges P1 1 (Pseudo.expand .transcribed (.dacLoad 0x12#8 0x34#8)) = [4, 50, 96, 142, 188, 196] := by decide

/-- 95 V-R1: the `SMP` edges at `DELAY = 1`. -/
theorem test_timing : (List.range 8).map (sampleEdge P1) = [7, 12, 17, 22, 27, 32, 37, 42] := by decide

/-- R100: 8 MHz and `DELAY = 38` give about 101.3 kHz, from the nominal 100 kHz. -/
theorem test_scl_frequency :
    101250 < sclFrequency { delay := 38, wackRelease := true } 8000000 ∧
    sclFrequency { delay := 38, wackRelease := true } 8000000 < 101350 ∧
    38 < delayForFrequency 8000000 100000 ∧ delayForFrequency 8000000 100000 < 39 := by
  norm_num [sclFrequency, bitPeriod, delayForFrequency]

/-- R94, R95: no START, a READ_ACK last, a NACK too early. -/
theorem test_bad_transactions : isTransaction [.write 0xD0#8, .stop] = false ∧
    isTransaction [.start, .write 0xD1#8, .readAck, .stop] = false ∧
    isTransaction [.start, .write 0xD1#8, .readNack, .readNack, .stop] = false := by decide

/-- R49: a line with a comment, a decimal immediate, and lines that are no command. -/
theorem test_assembler :
    (match assembleLine ['W', 'R', 'I', 'T', 'E', ' ', '5', '8', ' ', ';', 'x'] with
      | .ok w => w == 0x23A#10 | .error _ => false) = true ∧
    (match assembleLine ['W', 'R', 'I', 'T', 'E', ' ', '2', '5', '6'] with
      | .error .immTooLarge => true | _ => false) = true ∧
    (match assembleLine ['S', 'T', 'O', 'P', ' ', '1'] with
      | .error .badOperands => true | _ => false) = true ∧
    (match assembleLine ['s', 't', 'o', 'p'] with
      | .error .unknownMnemonic => true | _ => false) = true := by decide

/-! ### Witnesses: concrete states that meet the hypotheses of the statements -/

/-- The invariant of an engine in the midst of a command, from its position and lines. -/
theorem inv_of_midst {w : CmdWord} {k : BitVec 6} {scl sda : Bool}
    (hlt : k.toNat < (prog Config.params (decode w)).length)
    (hscl : scl = sclAlong false ((prog Config.params (decode w)).take k.toNat))
    (hsda : ∃ v, sda = sdaAlong v ((prog Config.params (decode w)).take k.toNat)) :
    EngineInv (midst w k scl sda) where
  done_idle h := by cases h
  idle_upc h := by cases h
  wcnt_zero _ := rfl
  wcnt_bound := one_le_delay
  idle_scl h := by cases h
  upc_bound _ := hlt
  run_scl _ := hscl
  run_sda _ := hsda

theorem inv_of_idle (ps : List PortIn) : EngineInv (idle ps) where
  done_idle h := by cases h
  idle_upc _ := rfl
  wcnt_zero _ := rfl
  wcnt_bound := one_le_delay
  idle_scl _ := rfl
  upc_bound h := by cases h
  run_scl h := by cases h
  run_sda h := by cases h

/-- A quiet script that offers `w` first. -/
def offerThenQuiet (w : CmdWord) (n : Nat) : State := idle (offering w false :: List.replicate n quiet)

/-- What a script holds at its `k`-th entry a run reads after `k` steps. -/
theorem inputs_along {s t : State} {k : Nat} (ht : runFor k s = .next t) (hk : k < s.inputs.length) :
    t.inputs = s.inputs[k] :: s.inputs.drop (k + 1) := by
  rw [runFor_inputs ht]
  exact List.drop_eq_getElem_cons hk

/-- Every scripted port has SDA low and no reset: such a run is undisturbed. -/
theorem offerThenQuiet_undisturbed (w : CmdWord) {m n : Nat} (hmn : m ≤ n) :
    AcceptsUndisturbed w m (offerThenQuiet w n) where
  idle := rfl
  offered := rfl
  word := rfl
  noReset := by
    intro k hk
    cases k with
    | zero => rfl
    | succ k =>
      have : k < n := by omega
      simp [State.scheduled, offerThenQuiet, idle, this, quiet]
  lawful := by
    intro k hk t ht
    have hi := inputs_along ht (by simp [offerThenQuiet, idle]; omega)
    have hlow : ((offerThenQuiet w n).inputs[k]'(by simp [offerThenQuiet, idle]; omega)).sdaIn = false := by
      cases k with
      | zero => rfl
      | succ k => simp [offerThenQuiet, idle, quiet]
    generalize (offerThenQuiet w n).inputs[k]'_ = p at hi hlow
    simp [State.lawful, State.input, hi, hlow]

theorem witness_StepRunsLatchedCommand :
    (midst 0x23A#10 0#6 false false).input.rst = false ∧ (midst 0x23A#10 0#6 false false).lawful = true ∧
    (midst 0x23A#10 0#6 false false).busy = true ∧ decodeTableWord 16 0x3FF = some .readAck := by decide

theorem witness_OperandsAreTheirFields : opField 0x2FF#10 = 2#2 ∧ opField 0x3FF#10 = 3#2 ∧ opField 0x300#10 = 3#2 := by
  decide

theorem witness_ReservedBitsAreIgnored : opField 0x0FF#10 = 0#2 ∧ opField 0x1FF#10 = 1#2 ∧ opField 0x200#10 = 2#2 ∧
    opField 0x3FE#10 = 3#2 := by decide

theorem witness_ResetEdgeLoadsResetState : (midst 0x301#10 46#6 true true).busy = true ∧
    ({ midst 0x301#10 46#6 true true with inputs := [inReset] } : State).input.rst = true := by decide

theorem witness_HeldResetKeepsResetState :
    (∀ k, k ≤ 1 → ((idle [inReset, inReset, offering 0x23A#10 true]).scheduled k).rst = true) ∧
    ((idle [inReset, inReset, offering 0x23A#10 true]).scheduled 2).rst = false ∧
    ((idle [inReset, inReset, offering 0x23A#10 true]).scheduled 2).cmdValid = true := by
  refine ⟨fun k hk => ?_, rfl, rfl⟩
  obtain rfl | rfl : k = 0 ∨ k = 1 := by omega
  · rfl
  · rfl

/-- Both clauses: SCL released, and both lines driven. -/
theorem witness_ResetAbandonsRunningCommand :
    (let s : State := { midst 0x000#10 2#6 false true with inputs := [inReset] }
     s.busy = true ∧ s.input.rst = true ∧ s.sclOe = false ∧ s.sdaOe = true) ∧
    (let s : State := { midst 0x100#10 2#6 true true with inputs := [inReset] }
     s.busy = true ∧ s.input.rst = true ∧ s.sclOe = true ∧ s.sdaOe = true) := by decide

theorem witness_AcceptanceEdge :
    (let s := idle [offering 0x2FF#10 true]
     s.input.rst = false ∧ s.lawful = true ∧ s.busy = false ∧ s.input.cmdValid = true) := by decide

/-- Not ready because busy, and because in reset. -/
theorem witness_OfferWhileNotReadyHasNoEffect :
    (offering 0x100#10 false).rst = quiet.rst ∧ (offering 0x100#10 false).sdaIn = quiet.sdaIn ∧
    State.cmdReady { midst 0x000#10 1#6 false false with inputs := [offering 0x100#10 false] } = false ∧
    State.cmdReady { State.reset with inputs := [inReset] } = false := by decide

theorem witness_IdleEdgeChangesOnlyDone :
    (let s := idle [quiet]
     s.input.rst = false ∧ s.lawful = true ∧ s.busy = false ∧ s.input.cmdValid = false) := by decide

theorem witness_AcceptanceAndCompletionNeverShareAnEdge :
    (∃ t, step (idle [offering 0x2FF#10 true]) = .next t) ∧ (idle [offering 0x2FF#10 true]).cmdReady = true ∧
    (idle [offering 0x2FF#10 true]).input.cmdValid = true := ⟨⟨_, rfl⟩, rfl, rfl⟩

theorem witness_OnlyABrokenLawStopsTheEngine :
    (let s : State := { midst 0x000#10 2#6 false true with inputs := [{ quiet with sdaIn := true }] }
     s.input.rst = false ∧ s.sdaOe = true ∧ s.input.sdaIn = true) ∧
    EngineInv (midst 0x000#10 2#6 false true) ∧
    ((midst 0x000#10 2#6 false true).sdaOe = true → (midst 0x000#10 2#6 false true).input.sdaIn = false) :=
  ⟨by decide, inv_of_midst (by decide) (by decide) ⟨false, by decide⟩, fun _ => rfl⟩

/-- Each of the seven micro-ops stands somewhere, and an index past START's sequence. -/
theorem witness_MicroOpEffects :
    (prog Config.params .stop)[(0#6).toNat]? = some .CL ∧ (prog Config.params .start)[(0#6).toNat]? = some .CR ∧
    (prog Config.params .start)[(1#6).toNat]? = some .DL ∧ (prog Config.params .stop)[(5#6).toNat]? = some .DR ∧
    (prog Config.params (.write 0x01#8))[(36#6).toNat]? = some (.DS true) ∧
    (prog Config.params .readAck)[(46#6).toNat]? = some .W ∧ (prog Config.params .readNack)[(41#6).toNat]? = some .SMP ∧
    (prog Config.params .start).length ≤ (3#6).toNat := by decide

theorem witness_SampleShiftsIntoBitZero :
    (prog Config.params .readAck)[(midst 0x301#10 6#6 false false).upc.toNat]? = some .SMP ∧
    (prog Config.params .readNack)[(midst 0x300#10 41#6 false false).upc.toNat]? = some .SMP := by decide

/-- The first `W` of STOP, with a quiet script of `DELAY` cycles. -/
theorem witness_WaitLastsDelayEdges :
    (let s : State := { midst 0x100#10 2#6 true true with inputs := List.replicate Config.params.delay quiet }
     s.busy = true ∧ s.current = some .W ∧ s.wcnt = 0 ∧ s.upc.toNat + 1 < (prog Config.params s.running).length ∧
     NoResetFor Config.params.delay s ∧ LawfulFor Config.params.delay s) := by
  refine ⟨rfl, rfl, rfl, by decide, fun k hk => ?_, fun k hk t ht => ?_⟩
  · simp [State.scheduled, hk, quiet]
  · have hd : t.inputs = quiet :: List.replicate (Config.params.delay - k - 1) quiet := by
      rw [runFor_inputs ht, List.drop_replicate, ← List.replicate_succ]
      congr 1
      omega
    simp [State.lawful, State.input, hd, quiet]

theorem witness_CompletionEdge :
    (let s : State := { midst 0x301#10 46#6 false true with wcnt := Config.params.delay - 1 }
     s.upc.toNat + 1 = (prog Config.params .readAck).length ∧ s.wcnt + 1 = Config.params.delay) ∧
    (let s : State := { midst 0x000#10 2#6 false true with wcnt := Config.params.delay - 1 }
     s.upc.toNat + 1 = (prog Config.params .start).length ∧ s.wcnt + 1 = Config.params.delay) :=
  ⟨⟨by decide, Nat.sub_add_cancel one_le_delay⟩, ⟨by decide, Nat.sub_add_cancel one_le_delay⟩⟩

/-- The first and the last micro-op of START, of STOP and of either READ's tail. -/
theorem witness_StartStopReadTailsEdgeByEdge :
    (midst 0x000#10 0#6 false false).upc = 0#6 ∧ (midst 0x000#10 2#6 false true).upc = 2#6 ∧
    (midst 0x100#10 0#6 false true).upc = 0#6 ∧ (midst 0x100#10 6#6 false false).upc = 6#6 ∧
    (midst 0x301#10 42#6 false false).upc = 42#6 ∧ (midst 0x301#10 46#6 false true).upc = 46#6 ∧
    (midst 0x300#10 45#6 false false).upc = 45#6 := by decide

/-- The last data cell, and its last micro-op; the slot's clauses are taken under each value of `WACK_RELEASE`. -/
theorem witness_WriteCellEdgeByEdge : (7 : Nat) < 8 ∧ (midst 0x23A#10 35#6 false false).upc.toNat = 5 * 7 ∧
    (midst 0x23A#10 39#6 false false).upc.toNat = 5 * 7 + 4 ∧
    (midst 0x23A#10 0#6 false false).upc.toNat = 5 * 0 := by decide

/-- Whichever value the build has, its branch of the acknowledge slot is taken up to its last micro-op. -/
theorem witness_WriteAckSlotEdgeByEdge :
    (Config.params.wackRelease = true ∧ (midst 0x23A#10 44#6 false false).upc = 44#6) ∨
    (Config.params.wackRelease = false ∧ (midst 0x23A#10 43#6 false false).upc = 43#6) := by
  cases Config.params.wackRelease <;> simp [midst]

theorem witness_ReadBodyEdgeByEdge : (Instr.readAck = .readAck ∨ Instr.readAck = .readNack) ∧ (7 : Nat) < 8 ∧
    (midst 0x301#10 37#6 false false).upc.toNat = 5 * 7 + 2 ∧ (midst 0x301#10 41#6 false false).upc.toNat = 5 * 7 + 6 := by
  decide

theorem witness_StartStopWriteFrame :
    (Instr.write 0x3A#8).isRead = false ∧ (∃ t, exec (.write 0x3A#8) (midst 0x23A#10 1#6 true true) = .next t) ∧
    (∃ t, exec .start (midst 0x000#10 1#6 false false) = .next t ∧ t.sdaOe ≠ (midst 0x000#10 1#6 false false).sdaOe) ∧
    (∃ t, exec .stop (midst 0x100#10 0#6 false false) = .next t ∧ t.sclOe ≠ (midst 0x100#10 0#6 false false).sclOe) :=
  ⟨rfl, ⟨_, rfl⟩, ⟨_, rfl, by decide⟩, ⟨_, rfl, by decide⟩⟩

theorem witness_ReadFrame :
    Instr.readAck.isRead = true ∧
    (let s : State := { midst 0x301#10 6#6 false false with acc := 0x01#8 }
     ∃ t, exec .readAck s = .next t ∧ t.done = false ∧ t.acc ≠ s.acc) ∧
    (∃ t, exec .readNack (midst 0x300#10 1#6 true true) = .next t ∧ t.sdaOe ≠ true) :=
  ⟨rfl, ⟨_, rfl, rfl, by decide⟩, ⟨_, rfl, by decide⟩⟩

/-- For the statements whose premise is a step, without reset where they say so: BusyFromAcceptanceToCompletion,
DoneExactlyAfterCompletion, RdataWrittenOnlyByReadCompletion, AccWrittenOnlyBySample, LcmdWrittenOnlyByAcceptance,
LinesMoveOnlyByMicroOps, AtMostOneLineChangesPerEdge. -/
theorem witness_rules_over_steps :
    (∃ t, step (midst 0x301#10 6#6 false false) = .next t) ∧ (midst 0x301#10 6#6 false false).input.rst = false ∧
    (midst 0x301#10 6#6 false false).busy = true ∧ (midst 0x301#10 6#6 false false).current = some .SMP ∧
    (∃ t, step (midst 0x100#10 0#6 false true) = .next t ∧ t.sclOe ≠ (midst 0x100#10 0#6 false true).sclOe) :=
  ⟨⟨_, rfl⟩, rfl, rfl, rfl, ⟨_, rfl, by decide⟩⟩

theorem witness_StepIsTheWholeStep :
    (midst 0x301#10 6#6 false false).lawful = true ∧
    ∃ t, wholeStep Config.params (midst 0x301#10 6#6 false false) (midst 0x301#10 6#6 false false).input = some t :=
  ⟨rfl, ⟨_, rfl⟩⟩

theorem witness_StepKeepsInvariant :
    EngineInv (midst 0x100#10 5#6 false true) ∧ ∃ t, step (midst 0x100#10 5#6 false true) = .next t :=
  ⟨inv_of_midst (by decide) (by decide) ⟨false, by decide⟩, ⟨_, rfl⟩⟩

theorem witness_SclReleasedWheneverIdle :
    EngineInv (idle [quiet]) ∧ ∃ t, runFor 1 (idle [quiet]) = .next t ∧ t.busy = false :=
  ⟨inv_of_idle _, ⟨_, rfl, rfl⟩⟩

/-- START at the last cycle of its wait. -/
def startLast : State := { midst 0x000#10 2#6 false true with wcnt := Config.params.delay - 1 }

theorem inv_of_startLast : EngineInv startLast where
  done_idle h := by cases h
  idle_upc h := by cases h
  wcnt_zero h := absurd ⟨rfl, rfl⟩ h
  wcnt_bound := Nat.sub_lt one_le_delay Nat.one_pos
  idle_scl h := by cases h
  upc_bound _ := by decide
  run_scl _ := by decide
  run_sda _ := ⟨false, by decide⟩

theorem startLast_completes : ∃ t, step startLast = .next t ∧ t.busy = false ∧ t.done = true := by
  have hw : startLast.wcnt + 1 = Config.params.delay := Nat.sub_add_cancel one_le_delay
  refine ⟨_, step_run (u := .W) (rest := []) rfl rfl rfl rfl, ?_, ?_⟩ <;> simp [finishes_eq, hw]

/-- The clauses of the statement: from idle, going on, and completing. -/
theorem witness_UpcCountsMicroOps :
    (EngineInv (idle [quiet]) ∧ ∃ t, step (idle [quiet]) = .next t ∧ t.busy = false) ∧
    (EngineInv (midst 0x100#10 5#6 false true) ∧ ∃ t, step (midst 0x100#10 5#6 false true) = .next t ∧ t.busy = true) ∧
    (EngineInv startLast ∧ startLast.busy = true ∧ startLast.input.rst = false ∧
      ∃ t, step startLast = .next t ∧ t.busy = false) := by
  obtain ⟨t, ht, hb, _⟩ := startLast_completes
  exact ⟨⟨inv_of_idle _, ⟨_, rfl, rfl⟩⟩,
    ⟨inv_of_midst (by decide) (by decide) ⟨false, by decide⟩, ⟨_, rfl, rfl⟩⟩, inv_of_startLast, rfl, rfl, t, ht, hb⟩

theorem witness_SampleOnlyWithBothLinesReleased :
    EngineInv (midst 0x301#10 41#6 false false) ∧ (midst 0x301#10 41#6 false false).busy = true ∧
    (midst 0x301#10 41#6 false false).current = some .SMP :=
  ⟨inv_of_midst (by decide) (by decide) ⟨false, by decide⟩, rfl, rfl⟩

/-- For the statements about whole commands, CommandRunsItsSequence, CommandCompletesAfterNEdges and
LineLevelsAtCompletion: every word, accepted and then undisturbed. -/
theorem witness_whole_commands (w : CmdWord) :
    AcceptsUndisturbed w (duration Config.params (decode w)) (offerThenQuiet w (duration Config.params (decode w))) :=
  offerThenQuiet_undisturbed w (Nat.le_refl _)

/-- The clause of the next acceptance: a state at rest in which a word is offered. -/
theorem witness_next_acceptance : (idle [offering 0x100#10 true]).input.rst = false ∧
    (idle [offering 0x100#10 true]).lawful = true ∧ (idle [offering 0x100#10 true]).input.cmdValid = true := by decide

theorem witness_LineLevelsAtCompletion :
    (∃ v, step (midst 0x100#10 0#6 false true) = .next v) ∧ (midst 0x100#10 0#6 false true).input.rst = false ∧
    (midst 0x100#10 0#6 false true).current = some .CL := ⟨⟨_, rfl⟩, rfl, rfl⟩

/-- Every sample 0: SDA low in a quiet script long enough to hold the sampling edges (byte 0x00). -/
theorem witness_ReadReturnsSampledByte_low :
    (decode 0x301#10).isRead = true ∧
    (let s := offerThenQuiet 0x301#10 (duration Config.params .readAck + sampleEdge Config.params 7)
     AcceptsUndisturbed 0x301#10 (duration Config.params .readAck) s ∧
     ∀ j, j < 8 → (s.scheduled (sampleEdge Config.params j)).sdaIn = false) := by
  refine ⟨rfl, offerThenQuiet_undisturbed _ (Nat.le_add_right _ _), fun j hj => ?_⟩
  have hle : sampleEdge Config.params j ≤ sampleEdge Config.params 7 := by
    unfold sampleEdge
    have := Nat.mul_le_mul_right (3 + 2 * Config.params.delay) (show j ≤ 7 by omega)
    omega
  obtain ⟨k, hk⟩ : ∃ k, sampleEdge Config.params j = k + 1 := ⟨_, rfl⟩
  rw [hk] at hle ⊢
  simp only [State.scheduled, offerThenQuiet, idle, List.getElem?_cons_succ]
  rw [List.getElem?_replicate, if_pos (by omega)]
  rfl

/-- A script that offers READ_NACK first and keeps SDA high. -/
def readNackHigh (n : Nat) : State := idle (offering 0x300#10 true :: List.replicate n { quiet with sdaIn := true })

/-- READ_NACK drives SDA low at none of its micro-ops (R73). -/
theorem readNack_never_drives_sda : ∀ u ∈ readNackProg, sdaAfter false u = false := by decide

/-- While the script lasts: SDA released, READ_NACK the only command, no reset. -/
def OnlyReadNack (t : State) : Prop :=
  t.inputs ≠ [] → t.sdaOe = false ∧ (t.busy = true → t.lcmd = 0x300#10) ∧
    ∀ p ∈ t.inputs, p.rst = false ∧ (p.cmdValid = true → p.cmd = 0x300#10)

theorem step_keeps_onlyReadNack (s t : State) (hs : OnlyReadNack s) (h : step s = .next t) : OnlyReadNack t := by
  intro hne
  have hi := step_inputs h
  have hsne : s.inputs ≠ [] := by
    intro h0
    rw [hi, h0] at hne
    exact hne rfl
  obtain ⟨hsda, hl, hp⟩ := hs hsne
  obtain ⟨p, ps, hps⟩ := List.exists_cons_of_ne_nil hsne
  have hin : s.input = p := by simp [State.input, hps]
  have hpr := hp p (by simp [hps])
  refine ⟨?_, ?_, fun q hq => hp q (List.mem_of_mem_tail (hi ▸ hq))⟩
  · rcases step_cases h with ⟨hr, rfl⟩ | ⟨_, _, hb, u, rest, hd, rfl⟩ | ⟨_, _, _, _, rfl⟩ | ⟨_, _, _, _, rfl⟩
    · rfl
    · have hrun : s.running = .readNack := by rw [State.running, hl hb]; rfl
      rw [hrun] at hd
      rw [tick_sdaOe, edgeResult_sdaOe, hsda]
      exact readNack_never_drives_sda u (List.mem_of_getElem? (drop_eq_cons hd).1)
    · exact hsda
    · exact hsda
  · rcases step_cases h with ⟨hr, rfl⟩ | ⟨_, _, hb, u, rest, hd, rfl⟩ | ⟨_, _, _, hv, rfl⟩ | ⟨_, _, hb, _, rfl⟩
    · intro hb; cases hb
    · intro _; simpa using hl hb
    · intro _
      rw [tick_lcmd, accept_lcmd, hin]
      exact hpr.2 (hin ▸ hv)
    · intro hb'; rw [tick_busy, clearDone_busy, hb] at hb'; cases hb'

/-- Every sample 1: no slave answers, SDA stays high throughout an undisturbed READ_NACK (byte 0xFF). -/
theorem witness_ReadReturnsSampledByte_high :
    (decode 0x300#10).isRead = true ∧
    (let s := readNackHigh (duration Config.params .readNack + sampleEdge Config.params 7)
     AcceptsUndisturbed 0x300#10 (duration Config.params .readNack) s ∧
     ∀ j, j < 8 → (s.scheduled (sampleEdge Config.params j)).sdaIn = true) := by
  have hlen : ∀ n, (readNackHigh n).inputs.length = n + 1 := fun n => by simp [readNackHigh, idle]
  have hI : ∀ n, OnlyReadNack (readNackHigh n) := by
    intro n _
    refine ⟨rfl, fun h => (by cases h), fun p hp => ?_⟩
    simp only [readNackHigh, idle, List.mem_cons, List.mem_replicate] at hp
    rcases hp with rfl | ⟨_, rfl⟩
    · exact ⟨rfl, fun _ => rfl⟩
    · exact ⟨rfl, fun h => (by cases h)⟩
  have hsched : ∀ n k, k ≤ n → ((readNackHigh n).scheduled k).rst = false ∧ ((readNackHigh n).scheduled k).sdaIn = true := by
    intro n k hk
    cases k with
    | zero => exact ⟨rfl, rfl⟩
    | succ k =>
      simp only [State.scheduled, readNackHigh, idle, List.getElem?_cons_succ]
      rw [List.getElem?_replicate, if_pos (by omega)]
      exact ⟨rfl, rfl⟩
  refine ⟨rfl, ⟨rfl, rfl, rfl, fun k hk => (hsched _ k (by omega)).1, fun k hk t ht => ?_⟩, fun j hj => ?_⟩
  · have hi := inputs_along ht (by rw [hlen]; omega)
    have ht' := runFor_keeps step_keeps_onlyReadNack (hI _) ht
    exact lawful_of_released t (ht' (by rw [hi]; exact List.cons_ne_nil _ _)).1
  · refine (hsched _ _ ?_).2
    unfold sampleEdge
    have := Nat.mul_le_mul_right (3 + 2 * Config.params.delay) (show j ≤ 7 by omega)
    omega

/-- The byte of the loopback statement at both ends of its range: 0x00 and 0xFF, with the two scripts above. -/
theorem witness_WriteThenReadReconstructsByte :
    (∀ j, j < 8 → ((offerThenQuiet 0x301#10 (duration Config.params .readAck + sampleEdge Config.params 7)).scheduled
      (sampleEdge Config.params j)).sdaIn = (0x00#8).getLsbD (7 - j)) ∧
    (∀ j, j < 8 → ((readNackHigh (duration Config.params .readNack + sampleEdge Config.params 7)).scheduled
      (sampleEdge Config.params j)).sdaIn = (0xFF#8).getLsbD (7 - j)) := by
  refine ⟨fun j hj => ?_, fun j hj => ?_⟩
  · rw [witness_ReadReturnsSampledByte_low.2.2 j hj]
    simp
  · rw [witness_ReadReturnsSampledByte_high.2.2 j hj]
    interval_cases j <;> rfl

/-- Two runs of a READ that differ in what SDA does and in `acc`. -/
theorem witness_ControlDoesNotDependOnSda :
    (let s := midst 0x301#10 6#6 false false
     let t : State := { midst 0x301#10 6#6 false false with acc := 0xFF#8, inputs := [{ quiet with sdaIn := true }] }
     SameButReadData s t ∧ (∃ s', runFor 1 s = .next s') ∧ (∃ t', runFor 1 t = .next t')) :=
  ⟨⟨rfl, rfl, rfl, rfl, rfl, rfl, rfl, rfl, rfl⟩, ⟨_, rfl⟩, ⟨_, rfl⟩⟩

theorem witness_RdataPersistsUntilNextRead :
    (let s : State := { midst 0x000#10 1#6 false false with rdata := 0x56#8 }
     NoResetFor 1 s ∧ (∀ k, k < 1 → ∀ u, runFor k s = .next u → u.busy = true → u.running.isRead = false) ∧
     ∃ t, runFor 1 s = .next t) := by
  refine ⟨fun k hk => ?_, fun k hk u hu _ => ?_, ⟨_, rfl⟩⟩
  · obtain rfl : k = 0 := by omega
    rfl
  · obtain rfl : k = 0 := by omega
    cases hu
    rfl

/-- A WRITE at a data bit and both READs where SDA moves. -/
theorem witness_TransfersMakeNoBusCondition :
    (EngineInv (midst 0x200#10 1#6 true false) ∧ (midst 0x200#10 1#6 true false).running ≠ .start ∧
      (midst 0x200#10 1#6 true false).running ≠ .stop ∧ ∃ t, step (midst 0x200#10 1#6 true false) = .next t) ∧
    (EngineInv (midst 0x301#10 43#6 true false) ∧ (midst 0x301#10 43#6 true false).running ≠ .start ∧
      ∃ t, step (midst 0x301#10 43#6 true false) = .next t) ∧
    (EngineInv (midst 0x300#10 1#6 true true) ∧ ∃ t, step (midst 0x300#10 1#6 true true) = .next t) :=
  ⟨⟨inv_of_midst (by decide) (by decide) ⟨false, by decide⟩, by decide, by decide, ⟨_, rfl⟩⟩,
   ⟨inv_of_midst (by decide) (by decide) ⟨false, by decide⟩, by decide, ⟨_, rfl⟩⟩,
   ⟨inv_of_midst (by decide) (by decide) ⟨true, by decide⟩, ⟨_, rfl⟩⟩⟩

/-- From SDA released, and from SDA driven (R66 (a), (b)). -/
theorem witness_StartMakesStartConditionIfSdaReleased :
    (EngineInv (midst 0x000#10 1#6 false false) ∧ (midst 0x000#10 1#6 false false).running = .start ∧
      ∃ t, step (midst 0x000#10 1#6 false false) = .next t) ∧
    (EngineInv (midst 0x000#10 1#6 false true) ∧ ∃ t, step (midst 0x000#10 1#6 false true) = .next t) :=
  ⟨⟨inv_of_midst (by decide) (by decide) ⟨false, by decide⟩, rfl, ⟨_, rfl⟩⟩,
   ⟨inv_of_midst (by decide) (by decide) ⟨true, by decide⟩, ⟨_, rfl⟩⟩⟩

theorem witness_StopAlwaysMakesStopCondition :
    EngineInv (midst 0x100#10 5#6 false true) ∧ (midst 0x100#10 5#6 false true).busy = true ∧
    (midst 0x100#10 5#6 false true).input.rst = false ∧ (midst 0x100#10 5#6 false true).running = .stop ∧
    ∃ t, step (midst 0x100#10 5#6 false true) = .next t :=
  ⟨inv_of_midst (by decide) (by decide) ⟨false, by decide⟩, rfl, rfl, rfl, ⟨_, rfl⟩⟩

theorem witness_TransactionLatency : P1.wackRelease = true := rfl

theorem witness_SclFrequencyIsClockOverBitPeriod :
    (0 : Rat) < 8000000 ∧ ({ delay := 38, wackRelease := true } : Params).delay = 38 := ⟨by norm_num, rfl⟩

end Sys2Proof.Tests
end

section
/-! The statements about the state (spec/10_state.md): what a step leaves in each element, the invariant, and runs. -/

namespace Sys2Proof.Machine

open Sys2Proof.Safety

/-! ### Sequences, micro-ops and completion -/

section Edge

variable {P : Params} {s t : State} {u : MicroOp} {us rest : List MicroOp}

/-- The micro-ops run once the one at `n` has finished. -/
theorem take_succ_of_drop {n : Nat} (h : us.drop n = u :: rest) : us.take (n + 1) = us.take n ++ [u] := by
  rw [List.take_add_one, (drop_eq_cons h).1, Option.toList_some]

/-- The wait with edges left is all that does not finish (R56). -/
theorem finishes_eq_false_iff : u.finishes P s = false ↔ u = .W ∧ s.wcnt + 1 < P.delay := by
  simp [finishes_eq]

theorem sclAfter_ne {v : Bool} (h : sclAfter v u ≠ v) : u = .CL ∨ u = .CR := by
  cases u <;> simp [sclAfter] at h ⊢

theorem sdaAfter_ne {v : Bool} (h : sdaAfter v u ≠ v) : u = .DL ∨ u = .DR ∨ ∃ x, u = .DS x := by
  cases u <;> simp [sdaAfter] at h ⊢

/-- Whatever level a command finds SCL at, its sequence leaves SCL released (R61). -/
theorem sclAlong_prog (P : Params) (i : Instr) (v : Bool) : sclAlong v (prog P i) = false := by
  cases i with
  | start => rfl
  | stop => rfl
  | write b =>
    rw [prog, writeProg, sclAlong_append, writeAckSlot]
    cases P.wackRelease <;> rfl
  | readNack => rfl
  | readAck => rfl

/-- `prog` reads nothing of a build but `WACK_RELEASE` (R55). -/
theorem prog_congr {P Q : Params} (i : Instr) (h : P.wackRelease = Q.wackRelease) : prog P i = prog Q i := by
  cases i with
  | write b => simp only [prog, writeProg, h]
  | _ => rfl

theorem completesNow_of_reset (h : s.input.rst = true) : completesNow s = false := by simp [completesNow, h]

theorem completesNow_of_idle (h : s.busy = false) : completesNow s = false := by simp [completesNow, h]

/-- A running command completes at the edge that finishes the micro-op with nothing after it (R57). -/
theorem completesNow_of_run (hr : s.input.rst = false) (hb : s.busy = true)
    (hd : (prog Config.params s.running).drop s.upc.toNat = u :: rest) :
    completesNow s = (u.finishes Config.params s && rest.isEmpty) := by
  have hlast : decide (s.upc.toNat + 1 = (prog Config.params s.running).length) = rest.isEmpty := by
    rw [← (drop_eq_cons hd).2]
    cases rest <;> simp
  simp [completesNow, hr, hb, hlast, current_of_drop hd, finishes_eq, Bool.and_comm, beq_eq_decide]

end Edge

/-! ### What a step leaves in each element -/

section Step

variable {s t : State}

theorem step_busy (h : step s = .next t) :
    t.busy = (!s.input.rst && (if s.busy then !completesNow s else s.input.cmdValid)) := by
  cases step_cases h with
  | reset hr eq => simp [eq, hr]
  | run hr hl hb u rest hd eq => simp [eq, hr, hb, completesNow_of_run hr hb hd]
  | accept hr hl hb hv eq => simp [eq, hr, hb, hv]
  | idle hr hl hb hv eq => simp [eq, hr, hb, hv]

theorem step_done (h : step s = .next t) : t.done = completesNow s := by
  cases step_cases h with
  | reset hr eq => simp [eq, completesNow_of_reset hr]
  | run hr hl hb u rest hd eq => simp [eq, completesNow_of_run hr hb hd]
  | accept hr hl hb hv eq => simp [eq, completesNow_of_idle hb]
  | idle hr hl hb hv eq => simp [eq, completesNow_of_idle hb]

theorem step_acc (h : step s = .next t) (hr : s.input.rst = false) :
    t.acc = if s.busy = true ∧ s.current = some .SMP then shiftIn s.acc s.input.sdaIn else s.acc := by
  cases step_cases h with
  | reset hr' eq => rw [hr] at hr'; cases hr'
  | run _ hl hb u rest hd eq => simp [eq, hb, current_of_drop hd]
  | accept _ hl hb hv eq => simp [eq, hb]
  | idle _ hl hb hv eq => simp [eq, hb]

theorem step_lcmd (h : step s = .next t) (hr : s.input.rst = false) :
    t.lcmd = if s.busy = false ∧ s.input.cmdValid = true then s.input.cmd else s.lcmd := by
  cases step_cases h with
  | reset hr' eq => rw [hr] at hr'; cases hr'
  | run _ hl hb u rest hd eq => simp [eq, hb]
  | accept _ hl hb hv eq => simp [eq, hb, hv]
  | idle _ hl hb hv eq => simp [eq, hv]

/-- Without a reset and a running READ an edge keeps `rdata` (R22). -/
theorem step_keeps_rdata (h : step s = .next t) (hr : s.input.rst = false)
    (hread : s.busy = true → s.running.isRead = false) : t.rdata = s.rdata := by
  cases step_cases h with
  | reset hr' eq => rw [hr] at hr'; cases hr'
  | run _ hl hb u rest hd eq => simp [eq, hread hb]
  | accept _ hl hb hv eq => simp [eq]
  | idle _ hl hb hv eq => simp [eq]

/-- An edge without reset leaves the lines, or does to them what the current micro-op does (R17, R52). -/
theorem step_lines (h : step s = .next t) (hr : s.input.rst = false) :
    (t.sclOe = s.sclOe ∧ t.sdaOe = s.sdaOe) ∨
    ∃ u, s.busy = true ∧ s.current = some u ∧ t.sclOe = sclAfter s.sclOe u ∧ t.sdaOe = sdaAfter s.sdaOe u := by
  cases step_cases h with
  | reset hr' eq => rw [hr] at hr'; cases hr'
  | run _ hl hb u rest hd eq => exact .inr ⟨u, hb, current_of_drop hd, by simp [eq], by simp [eq]⟩
  | accept _ hl hb hv eq => exact .inl (by simp [eq])
  | idle _ hl hb hv eq => exact .inl (by simp [eq])

theorem mapNext_not_refused {f : State → State} {o : Host.Outcome State Fault Refusal} {r : Refusal}
    (h : o ≠ .refused r) : mapNext f o ≠ .refused r := by
  cases o with
  | next v => simp [mapNext]
  | fault e => simp [mapNext]
  | refused q => exact h

/-- No edge is refused: reset, acceptance and idling have no other outcome, and every command has its meaning (R77). -/
theorem step_not_refused (s : State) (r : Refusal) : step s ≠ .refused r := by
  unfold step edge
  split
  · simp
  split
  · simp
  split
  · exact mapNext_not_refused (exec_not_refused s s.running r)
  split <;> simp

/-- SDA high against the engine's drive stops an edge without reset (I4). -/
theorem step_unlawful (hr : s.input.rst = false) (hl : s.lawful = false) : step s = .fault .wiredAndBroken := by
  simp [step, edge, hr, hl]

end Step

/-! ### The invariant -/

section Invariant

variable {s t : State} {u : MicroOp} {rest : List MicroOp}

/-- An idle engine with the counters at 0 and SCL released meets the invariant, whatever level SDA is at. -/
theorem engineInv_of_idle (hb : s.busy = false) (hu : s.upc = 0#6) (hw : s.wcnt = 0) (hc : s.sclOe = false) :
    EngineInv s where
  done_idle _ := hb
  idle_upc _ := hu
  wcnt_zero _ := hw
  wcnt_bound := hw ▸ one_le_delay
  idle_scl _ := hc
  upc_bound h := by simp [hb] at h
  run_scl h := by simp [hb] at h
  run_sda h := by simp [hb] at h

/-- The invariant of a running engine, from its position in the sequence of `i`. -/
theorem engineInv_of_running {i : Instr} (hi : t.running = i) (hb : t.busy = true) (hd : t.done = false)
    (hw : t.current ≠ some .W → t.wcnt = 0) (hwb : t.wcnt < Config.params.delay)
    (hlt : t.upc.toNat < (prog Config.params i).length)
    (hscl : t.sclOe = sclAlong false ((prog Config.params i).take t.upc.toNat))
    (hsda : ∃ v, t.sdaOe = sdaAlong v ((prog Config.params i).take t.upc.toNat)) : EngineInv t := by
  subst hi
  exact
    { done_idle := fun h => by simp [hd] at h
      idle_upc := fun h => by simp [hb] at h
      wcnt_zero := fun h => hw fun hc => h ⟨hb, hc⟩
      wcnt_bound := hwb
      idle_scl := fun h => by simp [hb] at h
      upc_bound := fun _ => hlt
      run_scl := fun _ => hscl
      run_sda := fun _ => hsda }

/-- The invariant reads nothing of the model's own fields. -/
theorem engineInv_tick (inv : EngineInv s) : EngineInv s.tick :=
  ⟨inv.done_idle, inv.idle_upc, inv.wcnt_zero, inv.wcnt_bound, inv.idle_scl, inv.upc_bound, inv.run_scl, inv.run_sda⟩

theorem engineInv_accept (inv : EngineInv s) (hb : s.busy = false) : EngineInv s.accept := by
  have hpos : 0 < (prog Config.params s.accept.running).length :=
    Nat.lt_of_lt_of_le (by decide) (prog_length Config.params s.accept.running).1
  exact engineInv_of_running rfl rfl rfl (fun _ => rfl) one_le_delay hpos (inv.idle_scl hb) ⟨s.sdaOe, rfl⟩

/-- While a command runs its `upc` is 46 at most (R26). -/
theorem upc_le_of_running (inv : EngineInv s) (hb : s.busy = true) : s.upc.toNat ≤ 46 := by
  have hlt := inv.upc_bound hb
  have hlen := (prog_length Config.params s.running).2
  omega

/-- The index after a running command's `upc` does not wrap (R26). -/
theorem upc_succ_of_running (inv : EngineInv s) (hb : s.busy = true) :
    (s.upc + 1#6).toNat = s.upc.toNat + 1 := by
  have hle := upc_le_of_running inv hb
  rw [BitVec.toNat_add]
  exact Nat.mod_eq_of_lt (by simp; omega)

/-- Where the current micro-op leaves SCL, read from the sequence. -/
theorem sclAfter_current (inv : EngineInv s) (hb : s.busy = true)
    (hd : (prog Config.params s.running).drop s.upc.toNat = u :: rest) :
    sclAfter s.sclOe u = sclAlong false ((prog Config.params s.running).take (s.upc.toNat + 1)) := by
  rw [take_succ_of_drop hd, sclAlong_append, ← inv.run_scl hb]
  rfl

theorem sdaAfter_current (inv : EngineInv s) (hb : s.busy = true)
    (hd : (prog Config.params s.running).drop s.upc.toNat = u :: rest) :
    ∃ v, sdaAfter s.sdaOe u = sdaAlong v ((prog Config.params s.running).take (s.upc.toNat + 1)) := by
  obtain ⟨v, hv⟩ := inv.run_sda hb
  refine ⟨v, ?_⟩
  rw [take_succ_of_drop hd, sdaAlong_append, ← hv]
  rfl

/-- `wcnt` is 0 at a micro-op that is no wait, and the last edge of a wait clears it (R25, R56). -/
theorem wcnt_after_finish (inv : EngineInv s)
    (hd : (prog Config.params s.running).drop s.upc.toNat = u :: rest) (hf : u.finishes Config.params s = true) :
    (edgeResult Config.params u s (atEndOf s.running) rest).wcnt = 0 := by
  by_cases hu : u = .W
  · have hlast : ¬ s.wcnt + 1 < Config.params.delay := by simpa [finishes_eq, hu] using hf
    simp [hu, hlast]
  · have hz : s.wcnt = 0 := inv.wcnt_zero fun ⟨_, hc⟩ =>
      hu (Option.some.inj ((current_of_drop hd).symm.trans hc))
    simp [hu, hz]

/-- A wait with edges left stays where it is. -/
theorem engineInv_waiting (inv : EngineInv s) (hb : s.busy = true)
    (hd : (prog Config.params s.running).drop s.upc.toNat = u :: rest) (hf : u.finishes Config.params s = false) :
    EngineInv (edgeResult Config.params u s (atEndOf s.running) rest) := by
  obtain ⟨rfl, hw⟩ := finishes_eq_false_iff.mp hf
  have hcur : (edgeResult Config.params .W s (atEndOf s.running) rest).current = some .W := by
    simpa [State.current, State.running, hf] using current_of_drop hd
  refine engineInv_of_running (i := s.running) ?_ ?_ ?_ (fun h => absurd hcur h) ?_ ?_ ?_ ?_
  · simp [State.running]
  · simp [hf, hb]
  · simp [hf]
  · simp [hf, hw]
  · simpa [hf] using inv.upc_bound hb
  · simpa [hf, sclAfter] using inv.run_scl hb
  · simpa [hf, sdaAfter] using inv.run_sda hb

/-- A micro-op that finishes with others after it moves the engine to the next one. -/
theorem engineInv_advancing (inv : EngineInv s) (hb : s.busy = true)
    (hd : (prog Config.params s.running).drop s.upc.toNat = u :: rest) (hf : u.finishes Config.params s = true)
    (hrest : rest ≠ []) : EngineInv (edgeResult Config.params u s (atEndOf s.running) rest) := by
  have hupc := upc_succ_of_running inv hb
  have hw := wcnt_after_finish inv hd hf
  refine engineInv_of_running (i := s.running) ?_ ?_ ?_ (fun _ => hw) (hw ▸ one_le_delay) ?_ ?_ ?_
  · simp [State.running]
  · simp [hrest, hb]
  · simp [hrest]
  · have hlen := (drop_eq_cons hd).2
    have hpos := List.length_pos_of_ne_nil hrest
    simp only [edgeResult_upc, hf, List.isEmpty_eq_false_iff.mpr hrest, if_true, Bool.false_eq_true, if_false, hupc]
    omega
  · simpa [hf, hrest, hupc] using sclAfter_current inv hb hd
  · simpa [hf, hrest, hupc] using sdaAfter_current inv hb hd

/-- The last micro-op of a sequence leaves SCL released, so completion leaves an idle engine that meets the invariant. -/
theorem engineInv_completing (inv : EngineInv s) (hb : s.busy = true)
    (hd : (prog Config.params s.running).drop s.upc.toNat = [u]) (hf : u.finishes Config.params s = true) :
    EngineInv (edgeResult Config.params u s (atEndOf s.running) []) := by
  have hscl : sclAfter s.sclOe u = false := by
    have hlen : (prog Config.params s.running).length = s.upc.toNat + 1 := (drop_eq_cons hd).2.symm
    rw [sclAfter_current inv hb hd, ← hlen, List.take_length, sclAlong_prog]
  exact engineInv_of_idle (by simp [hf]) (by simp [hf]) (by simp [hf]) (by simpa using hscl)

/-- One edge of the running command keeps the invariant: it waits on, moves to the next micro-op, or completes. -/
theorem engineInv_edgeResult (inv : EngineInv s) (hb : s.busy = true)
    (hd : (prog Config.params s.running).drop s.upc.toNat = u :: rest) :
    EngineInv (edgeResult Config.params u s (atEndOf s.running) rest) := by
  cases hf : u.finishes Config.params s with
  | false => exact engineInv_waiting inv hb hd hf
  | true =>
    cases rest with
    | nil => exact engineInv_completing inv hb hd hf
    | cons v vs => exact engineInv_advancing inv hb hd hf (List.cons_ne_nil v vs)

theorem step_keeps_engineInv (inv : EngineInv s) (h : step s = .next t) : EngineInv t := by
  cases step_cases h with
  | reset _ eq => exact eq ▸ engineInv_of_idle rfl rfl rfl rfl
  | run _ _ hb u rest hd eq => exact eq ▸ engineInv_tick (engineInv_edgeResult inv hb hd)
  | accept _ _ hb _ eq => exact eq ▸ engineInv_tick (engineInv_accept inv hb)
  | idle _ _ hb _ eq =>
    have hw : s.wcnt = 0 := inv.wcnt_zero fun ⟨hb', _⟩ => by simp [hb] at hb'
    exact eq ▸ engineInv_of_idle hb (inv.idle_upc hb) hw (inv.idle_scl hb)

/-- An engine that meets the invariant stops at no edge at which the law holds (R19). -/
theorem step_answers (inv : EngineInv s) (hl : s.lawful = true) : ∃ t, step s = .next t := by
  cases hr : s.input.rst with
  | true => exact ⟨_, step_reset hr⟩
  | false =>
    cases hb : s.busy with
    | true =>
      obtain ⟨u, rest, hd⟩ := drop_of_lt (inv.upc_bound hb)
      exact ⟨_, step_run hr hl hb hd⟩
    | false =>
      cases hv : s.input.cmdValid with
      | true => exact ⟨_, step_accept hr hl hb hv⟩
      | false => exact ⟨_, step_idle hr hl hb hv⟩

/-- While a command runs on, `upc` moves by one where a micro-op finishes, and stays while a wait has edges left (R26). -/
theorem step_upc_running (inv : EngineInv s) (h : step s = .next t) (hb : s.busy = true)
    (hb' : t.busy = true) :
    t.upc.toNat =
      if s.current = some .W ∧ s.wcnt + 1 < Config.params.delay then s.upc.toNat else s.upc.toNat + 1 := by
  cases step_cases h with
  | reset _ eq => simp [eq] at hb'
  | run _ _ _ u rest hd eq =>
    subst eq
    cases hf : u.finishes Config.params s with
    | false =>
      obtain ⟨rfl, hw⟩ := finishes_eq_false_iff.mp hf
      simp [hf, current_of_drop hd, hw]
    | true =>
      have hrest : rest ≠ [] := by simpa [hf, hb] using hb'
      have hwait : ¬(u = .W ∧ s.wcnt + 1 < Config.params.delay) := fun hw => by
        simp [finishes_eq_false_iff.mpr hw] at hf
      simp [hf, hrest, current_of_drop hd, hwait, upc_succ_of_running inv hb]
  | accept _ _ hidle _ _ => simp [hb] at hidle
  | idle _ _ hidle _ _ => simp [hb] at hidle

/-- An edge from idle leaves `upc` 0 (R26, R53). -/
theorem step_upc_idle (inv : EngineInv s) (h : step s = .next t) (hb : s.busy = false) :
    t.upc = 0#6 := by
  cases step_cases h with
  | reset _ eq => simp [eq]
  | run _ _ hrun _ _ _ _ => simp [hb] at hrun
  | accept _ _ _ _ eq => simp [eq]
  | idle _ _ _ _ eq => simpa [eq] using inv.idle_upc hb

end Invariant

/-! ### Runs -/

section Run

variable {s t : State} {n k : Nat}

/-- A run free of resets reads none at the edge after its first `k` steps. -/
theorem rst_along (hn : NoResetFor n s) (hk : k < n) (ht : runFor k s = .next t) : t.input.rst = false := by
  rw [input_rst, runFor_scheduled ht, Nat.zero_add]
  exact hn k hk

/-- What is left of a run free of resets after its first step. -/
theorem noReset_after_step (hn : NoResetFor (n + 1) s) (h : step s = .next t) : NoResetFor n t := fun k hk => by
  rw [step_scheduled h]
  exact hn (k + 1) (Nat.succ_lt_succ hk)

/-- Where an engine stands that was at the start of a wait in `s` and has waited `k` edges since. -/
structure Waiting (s : State) (k : Nat) (t : State) : Prop where
  wcnt : t.wcnt = k
  upc : t.upc = s.upc
  busy : t.busy = true
  lcmd : t.lcmd = s.lcmd
  sclOe : t.sclOe = s.sclOe
  sdaOe : t.sdaOe = s.sdaOe

/-- While a wait lasts, the rest of the sequence is the one it began at. -/
theorem Waiting.drop {rest : List MicroOp} (w : Waiting s k t)
    (hd : (prog Config.params s.running).drop s.upc.toNat = .W :: rest) :
    (prog Config.params t.running).drop t.upc.toNat = .W :: rest := by
  rw [State.running, w.lcmd, w.upc]
  exact hd

/-- A wait with edges left counts one more (R56). -/
theorem Waiting.next_edge {rest : List MicroOp} (w : Waiting s k t)
    (hd : (prog Config.params s.running).drop s.upc.toNat = .W :: rest) (hr : t.input.rst = false)
    (hl : t.lawful = true) (hk : k + 1 < Config.params.delay) : ∃ v, step t = .next v ∧ Waiting s (k + 1) v := by
  have hf : MicroOp.W.finishes Config.params t = false := finishes_eq_false_iff.mpr ⟨rfl, w.wcnt ▸ hk⟩
  refine ⟨_, step_run hr hl w.busy (w.drop hd), ?_⟩
  constructor <;> simp [hf, sclAfter, sdaAfter, w.wcnt, w.upc, w.busy, w.lcmd, w.sclOe, w.sdaOe, hk]

/-- From the start of a wait, undisturbed, the engine is still waiting after each `k < DELAY` edges. -/
theorem run_waits {rest : List MicroOp} (w : Waiting s 0 s)
    (hd : (prog Config.params s.running).drop s.upc.toNat = .W :: rest)
    (hn : NoResetFor Config.params.delay s) (hl : LawfulFor Config.params.delay s) :
    ∀ k, k < Config.params.delay → ∃ t, runFor k s = .next t ∧ Waiting s k t := by
  intro k hk
  induction k with
  | zero => exact ⟨s, rfl, w⟩
  | succ k ih =>
    have hk' : k < Config.params.delay := Nat.lt_of_succ_lt hk
    obtain ⟨t, ht, wt⟩ := ih hk'
    obtain ⟨v, hv, wv⟩ := wt.next_edge hd (rst_along hn hk' ht) (hl k hk' t ht) hk
    exact ⟨v, (runFor_last ht).trans hv, wv⟩

/-- The last edge of a wait that is not the last micro-op. -/
theorem Waiting.last_edge {rest : List MicroOp} (w : Waiting s k t)
    (hd : (prog Config.params s.running).drop s.upc.toNat = .W :: rest) (hrest : rest ≠ []) (hr : t.input.rst = false)
    (hl : t.lawful = true) (hk : k + 1 = Config.params.delay) :
    ∃ v, step t = .next v ∧ v.wcnt = 0 ∧ v.upc = s.upc + 1#6 ∧ v.busy = true ∧ v.sclOe = s.sclOe ∧
      v.sdaOe = s.sdaOe := by
  have hlast : ¬ t.wcnt + 1 < Config.params.delay := by rw [w.wcnt, hk]; exact Nat.lt_irrefl _
  have hf : MicroOp.W.finishes Config.params t = true := by simp [finishes_eq, hlast]
  refine ⟨_, step_run hr hl w.busy (w.drop hd), ?_⟩
  simp [hf, hrest, hlast, sclAfter, sdaAfter, w.upc, w.busy, w.sclOe, w.sdaOe]

/-- `rdata` along a run without a reset and without a running READ (R22, R96). -/
theorem runFor_keeps_rdata (hn : NoResetFor n s)
    (hread : ∀ k, k < n → ∀ u, runFor k s = .next u → u.busy = true → u.running.isRead = false)
    (h : runFor n s = .next t) : t.rdata = s.rdata := by
  induction n generalizing s with
  | zero => cases h; rfl
  | succ n ih =>
    obtain ⟨u, hu, hrun⟩ := runFor_succ_next h
    have hfirst : u.rdata = s.rdata :=
      step_keeps_rdata hu (rst_along hn n.succ_pos (runFor_zero s)) (hread 0 n.succ_pos s (runFor_zero s))
    have hrest : t.rdata = u.rdata :=
      ih (noReset_after_step hn hu)
        (fun k hk v hv => hread (k + 1) (Nat.succ_lt_succ hk) v ((runFor_succ k hu).trans hv)) hrun
    exact hrest.trans hfirst

end Run

/-! ### The obligations -/

/-- Settles O35: the reset state is idle with everything at 0. -/
theorem resetMeetsInvariant : Obligations.ResetMeetsInvariant := engineInv_of_idle rfl rfl rfl rfl

/-- Settles O36, by the kinds of edge; at a running command's, by whether the micro-op finishes and is the last. -/
theorem stepKeepsInvariant : Obligations.StepKeepsInvariant := fun _ _ => step_keeps_engineInv

/-- Settles O7: a reset edge is the first that `edge` asks for. -/
theorem resetEdgeLoadsResetState : Obligations.ResetEdgeLoadsResetState := fun s hr =>
  ⟨⟨_, step_reset hr, rfl, rfl, rfl, rfl, rfl, rfl, rfl, rfl, rfl⟩, by simp [State.cmdReady, hr]⟩

/-- Settles O14: the invariant puts `upc` inside the sequence, so the law's break is the one stop left. -/
theorem onlyABrokenLawStopsTheEngine : Obligations.OnlyABrokenLawStopsTheEngine := by
  refine ⟨fun s hr hd hi => ?_, fun s inv law => ?_, step_not_refused⟩
  · exact step_unlawful hr (by simp [State.lawful, hd, hi])
  · refine step_answers inv ?_
    cases hd : s.sdaOe with
    | false => exact lawful_of_released s hd
    | true => simp [State.lawful, law hd]

/-- Settles O17, by induction on the edges waited. -/
theorem waitLastsDelayEdges : Obligations.WaitLastsDelayEdges := by
  intro s hb hcur hw hlt hn hl
  obtain ⟨rest, hd⟩ := drop_of_current hcur
  have hrest : rest ≠ [] := by
    rintro rfl
    exact hlt.ne (drop_eq_cons hd).2
  have hwaits := run_waits ⟨hw, rfl, hb, rfl, rfl, rfl⟩ hd hn hl
  refine ⟨fun k hk => ?_, ?_⟩
  · obtain ⟨t, ht, w⟩ := hwaits k hk
    exact ⟨t, ht, w.wcnt, w.upc, w.busy, w.sclOe, w.sdaOe⟩
  · obtain ⟨k, hk⟩ : ∃ k, k + 1 = Config.params.delay := ⟨Config.extraDelay, rfl⟩
    have hk' : k < Config.params.delay := by omega
    obtain ⟨t, ht, w⟩ := hwaits k hk'
    obtain ⟨v, hv, hend⟩ := w.last_edge hd hrest (rst_along hn hk' ht) (hl k hk' t ht) hk
    exact ⟨v, hk ▸ (runFor_last ht).trans hv, hend⟩

/-- Settles O27, from what a step leaves in `busy` and in `lcmd`. -/
theorem busyFromAcceptanceToCompletion : Obligations.BusyFromAcceptanceToCompletion := by
  refine fun s t h => ⟨step_busy h, fun hb hr => ?_⟩
  simp [step_lcmd h hr, hb]

/-- Settles O28, from what a step leaves in `done`. -/
theorem doneExactlyAfterCompletion : Obligations.DoneExactlyAfterCompletion := fun _ _ => step_done

/-- Settles O30, from what a step leaves in `acc`. -/
theorem accWrittenOnlyBySample : Obligations.AccWrittenOnlyBySample := fun _ _ => step_acc

/-- Settles O31, from what a step leaves in `lcmd`, and from what `prog` reads of a build. -/
theorem lcmdWrittenOnlyByAcceptance : Obligations.LcmdWrittenOnlyByAcceptance :=
  ⟨fun _ _ => step_lcmd, fun _ _ w => prog_congr (decode w)⟩

/-- Settles O32: a line that moved was acted on, and only these micro-ops act on it. -/
theorem linesMoveOnlyByMicroOps : Obligations.LinesMoveOnlyByMicroOps := by
  intro s t h hr
  obtain ⟨hscl, hsda⟩ | ⟨u, hb, hcur, hscl, hsda⟩ := step_lines h hr
  · exact ⟨fun hne => absurd hscl hne, fun hne => absurd hsda hne⟩
  · refine ⟨fun hne => ⟨hb, ?_⟩, fun hne => ⟨hb, ?_⟩⟩
    · simpa [hcur] using sclAfter_ne (hscl ▸ hne)
    · simpa [hcur] using sdaAfter_ne (hsda ▸ hne)

/-- Settles O38: the invariant bounds `upc` before the step and holds after it. -/
theorem upcCountsMicroOps : Obligations.UpcCountsMicroOps := by
  intro s t inv h
  refine ⟨step_upc_idle inv h, (step_keeps_engineInv inv h).idle_upc, ?_, rfl, fun hb hr hb' => ?_,
    step_upc_running inv h⟩
  · cases hb : s.busy with
    | true => exact upc_le_of_running inv hb
    | false => simp [inv.idle_upc hb]
  · have hcompletes : completesNow s = true := by simpa [hr, hb, hb'] using step_busy h
    simp only [completesNow, Bool.and_eq_true, decide_eq_true_eq] at hcompletes
    obtain ⟨⟨_, hlast⟩, _⟩ := hcompletes
    exact hlast

/-- Settles O46, by induction on the length of the run. -/
theorem rdataPersistsUntilNextRead : Obligations.RdataPersistsUntilNextRead := fun _ _ _ => runFor_keeps_rdata

end Sys2Proof.Machine
end

section
/-! The statements about the bus conditions and the data path (41_bus_conditions.md, 42_byte_transfer.md): what moves SDA
while SCL is released, and the byte an undisturbed READ returns. -/

namespace Sys2Proof.Machine

open Sys2Proof.Safety

/-! ### Line levels at each micro-op of a sequence -/

section Sequence

variable {p : Bool → Bool → MicroOp → Bool} {us rest : List MicroOp} {u : MicroOp}

/-- Each micro-op of a sequence begun at `scl_oe = c` and `sda_oe = d` meets `p` at the levels it finds. -/
def everyOp (p : Bool → Bool → MicroOp → Bool) (c d : Bool) : List MicroOp → Bool
  | [] => true
  | u :: us => p c d u && everyOp p (sclAfter c u) (sdaAfter d u) us

/-- The levels a micro-op finds are those the micro-ops before it leave. -/
theorem everyOp_at {c d : Bool} {n : Nat} (h : everyOp p c d us = true) (hd : us.drop n = u :: rest) :
    p (sclAlong c (us.take n)) (sdaAlong d (us.take n)) u = true := by
  induction us generalizing c d n with
  | nil => simp at hd
  | cons v vs ih =>
    obtain ⟨hv, hvs⟩ := Bool.and_eq_true_iff.mp h
    cases n with
    | zero =>
      obtain ⟨rfl, -⟩ := List.cons.inj hd
      exact hv
    | succ n => exact ih hvs hd

/-- SCL is driven low, the micro-op leaves SDA where it is, or it is one of `exempt`. -/
def stillUnlessSclLow (exempt : List MicroOp) (c _d : Bool) (u : MicroOp) : Bool :=
  c || decide (∀ v, sdaAfter v u = v) || exempt.contains u

/-- Both lines are released, or the micro-op takes no sample. -/
def samplesReleased (c d : Bool) (u : MicroOp) : Bool := decide (u ≠ .SMP) || (!c && !d)

/-- WRITE and both READs act on SDA only between a `CL` and the next `CR` (R68, R69, R71 to R73). -/
theorem transfer_stillUnlessSclLow (P : Params) {i : Instr} (h : i ≠ .start ∧ i ≠ .stop) :
    everyOp (stillUnlessSclLow []) false false (prog P i) = true := by
  cases i with
  | start => exact absurd rfl h.1
  | stop => exact absurd rfl h.2
  | write b =>
    rw [prog, writeProg, writeAckSlot]
    cases P.wackRelease <;> rfl
  | readNack => rfl
  | readAck => rfl

/-- Of START's micro-ops `DL` alone acts on SDA while SCL is released, and it stands at 1 (R66). -/
theorem start_stillUnlessSclLow : everyOp (stillUnlessSclLow [.DL]) false false startProg = true := by decide

theorem startProg_DL_iff : ∀ k : BitVec 6, startProg[k.toNat]? = some .DL ↔ k = 1#6 := by decide

/-- Of STOP's micro-ops `DR` alone acts on SDA while SCL is released, and it stands at 5 (R67). -/
theorem stop_stillUnlessSclLow : everyOp (stillUnlessSclLow [.DR]) false false stopProg = true := by decide

theorem stopProg_DR_iff : ∀ k : BitVec 6, stopProg[k.toNat]? = some .DR ↔ k = 5#6 := by decide

/-- Whatever levels a command finds the lines at, both are released at every `SMP` (R71, I4). -/
theorem prog_samplesReleased (P : Params) (i : Instr) (c d : Bool) :
    everyOp samplesReleased c d (prog P i) = true := by
  cases i with
  | start => rfl
  | stop => rfl
  | write b =>
    rw [prog, writeProg, writeAckSlot]
    cases P.wackRelease <;> rfl
  | readNack => cases c <;> cases d <;> rfl
  | readAck => cases c <;> cases d <;> rfl

end Sequence

/-! ### Bus conditions -/

section Bus

variable {s t : State} {u : MicroOp}

/-- What an edge of a running command does to the lines is what its current micro-op does (R17, R52). -/
theorem step_lines_running (h : step s = .next t) (hr : s.input.rst = false) (hb : s.busy = true) :
    ∃ u rest, (prog Config.params s.running).drop s.upc.toNat = u :: rest ∧
      t.sclOe = sclAfter s.sclOe u ∧ t.sdaOe = sdaAfter s.sdaOe u := by
  cases step_cases h with
  | reset hr' _ => simp [hr] at hr'
  | run _ _ _ u rest hd eq => exact ⟨u, rest, hd, by simp [eq], by simp [eq]⟩
  | accept _ _ hb' _ _ => simp [hb] at hb'
  | idle _ _ hb' _ _ => simp [hb] at hb'

/-- A micro-op acts on one line at most (R63). -/
theorem sclAfter_or_sdaAfter (u : MicroOp) (c d : Bool) : sclAfter c u = c ∨ sdaAfter d u = d := by
  cases u <;> simp [sclAfter, sdaAfter]

/-- No edge but a reset releases both lines at once (R89). -/
theorem bothReleased_of_step (h : step s = .next t) (hr : s.input.rst = false) : bothReleased s t = false := by
  have hone : t.sclOe = s.sclOe ∨ t.sdaOe = s.sdaOe := by
    obtain ⟨hscl, -⟩ | ⟨u, -, -, hscl, hsda⟩ := step_lines h hr
    · exact .inl hscl
    · rw [hscl, hsda]
      exact sclAfter_or_sdaAfter u s.sclOe s.sdaOe
  rcases hone with hscl | hsda
  · cases hs : s.sclOe <;> simp [bothReleased, hscl, hs]
  · cases hs : s.sdaOe <;> simp [bothReleased, hsda, hs]

/-- The outputs make no condition where SCL is driven low before the edge or SDA stays across it (R41). -/
theorem drives_none (h : s.sclOe = true ∨ t.sdaOe = s.sdaOe) : drivesStart s t = false ∧ drivesStop s t = false := by
  rcases h with h | h
  · simp [drivesStart, drivesStop, h]
  · simp [drivesStart, drivesStop, h]

/-- A running command makes a condition only at a micro-op exempt from acting on SDA at low SCL alone. -/
theorem drives_none_of_stillUnlessSclLow {i : Instr} {exempt : List MicroOp} (inv : EngineInv s)
    (hb : s.busy = true) (hr : s.input.rst = false) (h : step s = .next t) (hrun : s.running = i)
    (hprog : everyOp (stillUnlessSclLow exempt) false false (prog Config.params i) = true)
    (hcur : ∀ u ∈ exempt, (prog Config.params i)[s.upc.toNat]? ≠ some u) :
    drivesStart s t = false ∧ drivesStop s t = false := by
  subst hrun
  obtain ⟨u, rest, hd, -, hsda⟩ := step_lines_running h hr hb
  have hu : u ∉ exempt := fun hmem => hcur u hmem (drop_eq_cons hd).1
  have hstill : s.sclOe = true ∨ ∀ v, sdaAfter v u = v := by
    simpa [stillUnlessSclLow, hu, ← inv.run_scl hb] using everyOp_at hprog hd
  exact drives_none (hstill.imp_right fun hv => hsda.trans (hv s.sdaOe))

/-- The bus sees no condition where the outputs make none and no two lines rise at once (R41). -/
theorem busCondition_none (h : bothReleased s t = false) (hstart : drivesStart s t = false)
    (hstop : drivesStop s t = false) : busCondition s t = none := by
  simp [busCondition, busStart, busStop, h, hstart, hstop]

end Bus

/-! ### The accumulator along a sequence -/

section Accumulator

variable (P : Params) (level : Nat → Bool)

/-- The accumulator after a sequence begun at edge `n` with `a` in it, where SDA reads `level k` at edge `k` (R74). -/
def accAlong (n : Nat) (a : Byte) : List MicroOp → Byte
  | [] => a
  | u :: us => accAlong (n + u.edges P) (if u = .SMP then shiftIn a (level n) else a) us

/-- A sequence's second part begins at the edge after its first part's last. -/
theorem accAlong_append (n : Nat) (a : Byte) (us vs : List MicroOp) :
    accAlong P level n a (us ++ vs) = accAlong P level (n + lengthInEdges P us) (accAlong P level n a us) vs := by
  induction us generalizing n a with
  | nil => rfl
  | cons u us ih => rw [List.cons_append, accAlong, accAlong, ih, lengthInEdges_cons, Nat.add_assoc]

theorem accAlong_of_no_sample {us : List MicroOp} (h : .SMP ∉ us) (n : Nat) (a : Byte) :
    accAlong P level n a us = a := by
  induction us generalizing n with
  | nil => rfl
  | cons u us ih =>
    rw [accAlong, if_neg (List.ne_of_not_mem_cons h).symm, ih (List.not_mem_of_not_mem_cons h)]

theorem lengthInEdges_readCell : lengthInEdges P readCell = 3 + 2 * P.delay := by
  simp only [readCell, lengthInEdges_cons, lengthInEdges_nil, MicroOp.edges]
  omega

/-- A READ's cell takes one sample, with its last edge (R71). -/
theorem accAlong_readCell (n : Nat) (a : Byte) :
    accAlong P level n a readCell = shiftIn a (level (n + (2 + 2 * P.delay))) := by
  have hedge : n + 1 + P.delay + 1 + P.delay = n + (2 + 2 * P.delay) := by omega
  simp [readCell, accAlong, MicroOp.edges, hedge]

theorem lengthInEdges_readCells (m : Nat) :
    lengthInEdges P (List.replicate m readCell).flatten = m * (3 + 2 * P.delay) := by
  induction m with
  | zero => simp
  | succ m ih =>
    rw [List.replicate_succ, List.flatten_cons, lengthInEdges_append, lengthInEdges_readCell, ih]
    ring

/-- Successive cells shift in one sample each, a cell's length apart (R71). -/
theorem accAlong_readCells (n m : Nat) (a : Byte) :
    accAlong P level n a (List.replicate m readCell).flatten =
      (List.range m).foldl (fun b j => shiftIn b (level (n + j * (3 + 2 * P.delay) + (2 + 2 * P.delay)))) a := by
  induction m with
  | zero => rfl
  | succ m ih =>
    rw [List.replicate_succ', List.flatten_concat, accAlong_append, ih, lengthInEdges_readCells, accAlong_readCell,
      List.range_succ, List.foldl_append]
    rfl

/-- A READ's whole sequence leaves the byte its samples assemble to; edge 0 of the levels is the acceptance (R71, R76). -/
theorem accAlong_read {i : Instr} (h : i.isRead = true) (a : Byte) :
    accAlong P level 1 a (prog P i) = assembleByte a fun j => level (sampleEdge P j) := by
  obtain ⟨tail, htail, hprog⟩ : ∃ tail, MicroOp.SMP ∉ tail ∧
      prog P i = [.CL, .DR] ++ ((List.replicate 8 readCell).flatten ++ tail) := by
    cases i with
    | readAck => exact ⟨[.CL, .DL, .W, .CR, .W], by decide, rfl⟩
    | readNack => exact ⟨[.CL, .W, .CR, .W], by decide, rfl⟩
    | _ => cases h
  have hprologue : MicroOp.SMP ∉ [MicroOp.CL, MicroOp.DR] := by decide
  rw [hprog, accAlong_append, accAlong_append, accAlong_of_no_sample P level htail,
    accAlong_of_no_sample P level hprologue, accAlong_readCells]
  simp only [assembleByte, sampleEdge, lengthInEdges_cons, lengthInEdges_nil, MicroOp.edges, ← Nat.add_assoc]

/-- Of `m` samples shifted in, bit `k` is the one `k` before the last (R74). -/
theorem foldl_shiftIn_getLsbD (f : Nat → Bool) (a : Byte) {m k : Nat} (hm : k < m) (hk : k < 8) :
    ((List.range m).foldl (fun b j => shiftIn b (f j)) a).getLsbD k = f (m - 1 - k) := by
  induction m generalizing k with
  | zero => exact absurd hm k.not_lt_zero
  | succ m ih =>
    rw [List.range_succ, List.foldl_append, List.foldl_cons, List.foldl_nil]
    obtain ⟨hlast, hshift⟩ := shiftIn_bits ((List.range m).foldl (fun b j => shiftIn b (f j)) a) (f m)
    cases k with
    | zero => exact hlast
    | succ k =>
      rw [hshift k (by omega), ih (by omega) (by omega)]
      congr 1
      omega

/-- Eight samples leave nothing of the accumulator's earlier content: a byte whose bit `7 - j` is the sample of each
cell `j` is what they assemble to (R76). -/
theorem assembleByte_eq {a v : Byte} {f : Nat → Bool} (h : ∀ j, j < 8 → f j = v.getLsbD (7 - j)) :
    assembleByte a f = v := by
  apply BitVec.eq_of_getLsbD_eq
  intro k hk
  rw [assembleByte, foldl_shiftIn_getLsbD f a hk hk, h _ (by omega)]
  congr 1
  omega

end Accumulator

/-! ### An undisturbed command, edge by edge -/

section Undisturbed

variable {w : CmdWord} {s t : State} {u : MicroOp} {us rest : List MicroOp} {k n : Nat}

/-- Within the edges a micro-op takes, it finishes with the last of them (R56). -/
theorem finishes_iff_last_edge (h : t.wcnt < u.edges Config.params) :
    u.finishes Config.params t = true ↔ t.wcnt + 1 = u.edges Config.params := by
  cases u with
  | W =>
    simp only [MicroOp.edges] at h
    simp only [finishes_eq, MicroOp.edges, decide_true, Bool.true_and, Bool.not_eq_true', decide_eq_false_iff_not]
    omega
  | _ => simpa [MicroOp.finishes, MicroOp.edges] using h

/-- The last edge of a micro-op leaves no wait counted (R25, R56). -/
theorem edgeResult_wcnt_of_last_edge (i : Instr) (h : t.wcnt + 1 = u.edges Config.params) :
    (edgeResult Config.params u t (atEndOf i) rest).wcnt = 0 := by
  cases u with
  | W =>
    have hlast : ¬ t.wcnt + 1 < Config.params.delay := h.not_lt
    simp [hlast]
  | _ =>
    have hzero : t.wcnt = 0 := Nat.succ.inj h
    simp [hzero]

/-- Where a sequence splits at a micro-op, so do its edges. -/
theorem lengthInEdges_split (P : Params) (h : us.drop n = u :: rest) :
    lengthInEdges P us = lengthInEdges P (us.take n) + (u.edges P + lengthInEdges P rest) := by
  rw [← lengthInEdges_cons, ← h, ← lengthInEdges_append, List.take_append_drop]

/-- A sequence that takes no edge is empty (R5, R52). -/
theorem eq_nil_of_lengthInEdges (h : lengthInEdges Config.params us = 0) : us = [] := by
  cases us with
  | nil => rfl
  | cons u us =>
    have hpos := edges_pos u
    rw [lengthInEdges_cons] at h
    omega

theorem duration_pos (i : Instr) : 0 < duration Config.params i := by
  refine Nat.pos_of_ne_zero fun h => ?_
  have hlen := (prog_length Config.params i).1
  rw [eq_nil_of_lengthInEdges h] at hlen
  exact absurd hlen (by decide)

/-- What SDA reads, undriven, at each edge from the acceptance in `s` on. -/
def levelAt (s : State) (e : Nat) : Bool := (s.scheduled e).sdaIn

/-- Where the engine stands `k` edges after the acceptance of `w` in `s`, the command still running: in its sequence at
`upc`, with `wcnt` edges of that micro-op behind it, lines and accumulator as the micro-ops finished so far have left
them. -/
structure RunsAt (w : CmdWord) (s : State) (k : Nat) (t : State) : Prop where
  run : runFor (k + 1) s = .next t
  busy : t.busy = true
  done : t.done = false
  lcmd : t.lcmd = w
  at_upc : ∃ u rest, (prog Config.params (decode w)).drop t.upc.toNat = u :: rest ∧ t.wcnt < u.edges Config.params
  elapsed : k = lengthInEdges Config.params ((prog Config.params (decode w)).take t.upc.toNat) + t.wcnt
  sclOe : t.sclOe = sclAlong s.sclOe ((prog Config.params (decode w)).take t.upc.toNat)
  sdaOe : t.sdaOe = sdaAlong s.sdaOe ((prog Config.params (decode w)).take t.upc.toNat)
  acc : t.acc = accAlong Config.params (levelAt s) 1 s.acc ((prog Config.params (decode w)).take t.upc.toNat)

/-- The acceptance leaves the engine at the start of the sequence (R53). -/
theorem runsAt_accepted (h : AcceptsUndisturbed w n s) : ∃ t, RunsAt w s 0 t := by
  have hr : s.input.rst = false := rst_along h.noReset n.succ_pos (runFor_zero s)
  have hl : s.lawful = true := h.lawful 0 n.succ_pos s (runFor_zero s)
  have hpos : 0 < (prog Config.params (decode w)).length :=
    Nat.lt_of_lt_of_le (by decide) (prog_length Config.params (decode w)).1
  obtain ⟨u, rest, hd⟩ := drop_of_lt hpos
  exact ⟨s.accept.tick,
    { run := runFor_succ 0 (step_accept hr hl h.idle h.offered)
      busy := rfl
      done := rfl
      lcmd := h.word
      at_upc := ⟨u, rest, hd, edges_pos u⟩
      elapsed := rfl
      sclOe := rfl
      sdaOe := rfl
      acc := rfl }⟩

namespace RunsAt

theorem running (r : RunsAt w s k t) : t.running = decode w := by rw [State.running, r.lcmd]

/-- The level a sample takes is the one scheduled, for the engine drives SDA at no `SMP` (R71). -/
theorem sample (r : RunsAt w s k t) (hd : (prog Config.params (decode w)).drop t.upc.toNat = .SMP :: rest) :
    t.input.sdaIn = levelAt s (k + 1) := by
  have hreleased : t.sclOe = false ∧ t.sdaOe = false := by
    simpa [samplesReleased, ← r.sclOe, ← r.sdaOe] using
      everyOp_at (prog_samplesReleased Config.params (decode w) s.sclOe s.sdaOe) hd
  rw [input_sdaIn t hreleased.2, runFor_scheduled r.run, Nat.zero_add, levelAt]

/-- What the current micro-op's edge does to the accumulator, read from the sequence. -/
theorem acc_after (r : RunsAt w s k t) (hd : (prog Config.params (decode w)).drop t.upc.toNat = u :: rest)
    (hw : t.wcnt < u.edges Config.params) :
    (if u = .SMP then shiftIn t.acc t.input.sdaIn else t.acc) =
      accAlong Config.params (levelAt s) 1 s.acc ((prog Config.params (decode w)).take (t.upc.toNat + 1)) := by
  rw [take_succ_of_drop hd, accAlong_append, ← r.acc]
  by_cases hu : u = .SMP
  · subst hu
    have hk : k = lengthInEdges Config.params ((prog Config.params (decode w)).take t.upc.toNat) := by
      have := r.elapsed
      simp only [MicroOp.edges] at hw
      omega
    simp [accAlong, r.sample hd, hk, Nat.add_comm]
  · simp [accAlong, hu]

/-- A wait with edges left goes on. -/
theorem wait_on (r : RunsAt w s k t) (hr : t.input.rst = false) (hl : t.lawful = true)
    (hd : (prog Config.params (decode w)).drop t.upc.toNat = u :: rest) (hf : u.finishes Config.params t = false) :
    ∃ v, RunsAt w s (k + 1) v := by
  obtain ⟨rfl, hw⟩ := finishes_eq_false_iff.mp hf
  have hstep := step_run hr hl r.busy (by rw [r.running]; exact hd)
  exact ⟨_,
    { run := (runFor_last r.run).trans hstep
      busy := by simp [hf, r.busy]
      done := by simp [hf]
      lcmd := by simp [r.lcmd]
      at_upc := ⟨.W, rest, by simpa [hf] using hd, by simp [hf, hw, MicroOp.edges]⟩
      elapsed := by simpa [hf, hw, ← Nat.add_assoc] using r.elapsed
      sclOe := by simpa [hf, sclAfter] using r.sclOe
      sdaOe := by simpa [hf, sdaAfter] using r.sdaOe
      acc := by simpa [hf] using r.acc }⟩

/-- A micro-op that finishes with others after it gives way to the next. -/
theorem advance (r : RunsAt w s k t) (hr : t.input.rst = false) (hl : t.lawful = true)
    (hd : (prog Config.params (decode w)).drop t.upc.toNat = u :: rest) (hw : t.wcnt < u.edges Config.params)
    (hf : u.finishes Config.params t = true) (hrest : rest ≠ []) : ∃ v, RunsAt w s (k + 1) v := by
  have hstep := step_run hr hl r.busy (by rw [r.running]; exact hd)
  have hlast := (finishes_iff_last_edge hw).mp hf
  have hlen := (drop_eq_cons hd).2
  have hbound := (prog_length Config.params (decode w)).2
  have hpos := List.length_pos_of_ne_nil hrest
  have hupc : (t.upc + 1#6).toNat = t.upc.toNat + 1 := BitVec.toNat_add_of_lt (by simp; omega)
  obtain ⟨u', rest', hd'⟩ : ∃ u' rest', (prog Config.params (decode w)).drop (t.upc.toNat + 1) = u' :: rest' :=
    drop_of_lt (by omega)
  have hwcnt := edgeResult_wcnt_of_last_edge (rest := rest) t.running hlast
  have hv : (edgeResult Config.params u t (atEndOf t.running) rest).upc.toNat = t.upc.toNat + 1 := by
    simp [hf, hrest, hupc]
  exact ⟨_,
    { run := (runFor_last r.run).trans hstep
      busy := by simp [hrest, r.busy]
      done := by simp [hrest]
      lcmd := by simp [r.lcmd]
      at_upc := ⟨u', rest', by simpa only [tick_upc, hv] using hd', by simpa only [tick_wcnt, hwcnt] using edges_pos u'⟩
      elapsed := by
        have helapsed := r.elapsed
        simp only [tick_upc, tick_wcnt, hv, hwcnt, take_succ_of_drop hd, lengthInEdges_append, lengthInEdges_cons,
          lengthInEdges_nil]
        omega
      sclOe := by
        rw [tick_sclOe, edgeResult_sclOe, tick_upc, hv, take_succ_of_drop hd, sclAlong_append, ← r.sclOe]
        rfl
      sdaOe := by
        rw [tick_sdaOe, edgeResult_sdaOe, tick_upc, hv, take_succ_of_drop hd, sdaAlong_append, ← r.sdaOe]
        rfl
      acc := by rw [tick_acc, edgeResult_acc, tick_upc, hv, r.acc_after hd hw] }⟩

/-- Before the command's last edge the engine goes on running it. -/
theorem next_edge (r : RunsAt w s k t) (hr : t.input.rst = false) (hl : t.lawful = true)
    (hk : k + 1 < duration Config.params (decode w)) : ∃ v, RunsAt w s (k + 1) v := by
  obtain ⟨u, rest, hd, hw⟩ := r.at_upc
  cases hf : u.finishes Config.params t with
  | false => exact r.wait_on hr hl hd hf
  | true =>
    refine r.advance hr hl hd hw hf ?_
    rintro rfl
    have hlast := (finishes_iff_last_edge hw).mp hf
    have hlen := lengthInEdges_split Config.params hd
    have helapsed := r.elapsed
    simp only [duration, lengthInEdges_nil] at hk hlen
    omega

/-- The command's last edge completes it, and a READ returns what its samples have left in the accumulator (R57, R75). -/
theorem last_edge (r : RunsAt w s k t) (hr : t.input.rst = false) (hl : t.lawful = true)
    (hk : k + 1 = duration Config.params (decode w)) :
    ∃ v, runFor (k + 2) s = .next v ∧ v.busy = false ∧ v.done = true ∧
      v.rdata = if (decode w).isRead then
        accAlong Config.params (levelAt s) 1 s.acc (prog Config.params (decode w)) else t.rdata := by
  obtain ⟨u, rest, hd, hw⟩ := r.at_upc
  have hsplit := lengthInEdges_split Config.params hd
  have helapsed := r.elapsed
  rw [duration] at hk
  obtain rfl : rest = [] := eq_nil_of_lengthInEdges (by omega)
  have hf : u.finishes Config.params t = true := (finishes_iff_last_edge hw).mpr (by
    simp only [lengthInEdges_nil] at hsplit
    omega)
  have hacc := r.acc_after hd hw
  rw [show t.upc.toNat + 1 = _ from (drop_eq_cons hd).2, List.take_length] at hacc
  have hstep := step_run hr hl r.busy (by rw [r.running]; exact hd)
  refine ⟨_, (runFor_last r.run).trans hstep, ?_, ?_, ?_⟩
  · simp [hf]
  · simp [hf]
  · simp [hf, r.running, hacc]

end RunsAt

/-- A command accepted and then undisturbed is running at each edge short of its duration (R55, R60). -/
theorem runsAt_of_undisturbed (h : AcceptsUndisturbed w (duration Config.params (decode w)) s) :
    ∀ k, k < duration Config.params (decode w) → ∃ t, RunsAt w s k t := by
  intro k hk
  induction k with
  | zero => exact runsAt_accepted h
  | succ k ih =>
    obtain ⟨t, r⟩ := ih (by omega)
    exact r.next_edge (rst_along h.noReset (by omega) r.run) (h.lawful (k + 1) (by omega) t r.run) hk

/-- An undisturbed READ returns the byte its samples assemble to (R76). -/
theorem read_returns_assembled (hread : (decode w).isRead = true)
    (h : AcceptsUndisturbed w (duration Config.params (decode w)) s) :
    ∃ t, runFor (duration Config.params (decode w) + 1) s = .next t ∧ t.done = true ∧
      t.rdata = assembleByte s.acc fun j => (s.scheduled (sampleEdge Config.params j)).sdaIn := by
  obtain ⟨k, hk⟩ : ∃ k, k + 1 = duration Config.params (decode w) :=
    ⟨_, Nat.sub_add_cancel (duration_pos (decode w))⟩
  obtain ⟨t, r⟩ := runsAt_of_undisturbed h k (by omega)
  obtain ⟨v, hv, -, hdone, hrdata⟩ :=
    r.last_edge (rst_along h.noReset (by omega) r.run) (h.lawful (k + 1) (by omega) t r.run) hk
  rw [if_pos hread, accAlong_read _ _ hread] at hrdata
  exact ⟨v, hk ▸ hv, hdone, hrdata⟩

end Undisturbed

/-! ### The obligations -/

/-- Settles O13: a ready engine with an offered word is neither in reset nor running, so the edge is an acceptance. -/
theorem acceptanceAndCompletionNeverShareAnEdge : Obligations.AcceptanceAndCompletionNeverShareAnEdge := by
  intro s t h hready hv
  obtain ⟨hb, hr⟩ : s.busy = false ∧ s.input.rst = false := by simpa [State.cmdReady] using hready
  refine ⟨?_, ?_, ?_⟩
  · rw [step_done h, completesNow_of_idle hb]
  · simp [step_busy h, hr, hb, hv]
  · simp [step_lcmd h hr, hb, hv]

/-- Settles O47: where a transfer's micro-op acts on SDA, the invariant has SCL driven low. -/
theorem transfersMakeNoBusCondition : Obligations.TransfersMakeNoBusCondition := by
  intro s t inv hb hr htransfer h
  obtain ⟨hstart, hstop⟩ := drives_none_of_stillUnlessSclLow inv hb hr h rfl
    (transfer_stillUnlessSclLow Config.params htransfer) (by simp)
  exact ⟨hstart, hstop, busCondition_none (bothReleased_of_step h hr) hstart hstop⟩

/-- Settles O44: the cells of WRITE by inspection; the byte a READ returns is the one its samples assemble to. -/
theorem writeThenReadReconstructsByte : Obligations.WriteThenReadReconstructsByte := by
  refine ⟨fun P v j hj => ?_, fun v w s hread h hlevels => ?_⟩
  · interval_cases j <;> rfl
  · obtain ⟨t, ht, -, hrdata⟩ := read_returns_assembled hread h
    exact ⟨t, ht, hrdata.trans (assembleByte_eq hlevels)⟩

/-- Settles O48: at `DL` SCL is released in both cycles and SDA ends driven; no other micro-op can make a condition. -/
theorem startMakesStartConditionIfSdaReleased : Obligations.StartMakesStartConditionIfSdaReleased := by
  intro s t inv hb hr hrun h
  by_cases hk : s.upc = 1#6
  · obtain ⟨u, rest, hd, hscl, hsda⟩ := step_lines_running h hr hb
    have hc : s.sclOe = false := by rw [inv.run_scl hb, hrun, hk]; rfl
    rw [hrun, hk] at hd
    obtain ⟨rfl, -⟩ := List.cons.inj hd
    simp [drivesStart, drivesStop, busStart, State.sdaLevel, hk, hc, hscl, hsda, sclAfter, sdaAfter]
  · obtain ⟨hstart, hstop⟩ := drives_none_of_stillUnlessSclLow inv hb hr h hrun start_stillUnlessSclLow
      (by simpa [prog, startProg_DL_iff] using hk)
    simp [hstart, hstop, busStart, hk]

/-- Settles O49: at `DR` SCL is released in both cycles and SDA goes from driven to released; no other micro-op can make
a condition. -/
theorem stopAlwaysMakesStopCondition : Obligations.StopAlwaysMakesStopCondition := by
  intro s t inv hb hr hrun h
  by_cases hk : s.upc = 5#6
  · obtain ⟨u, rest, hd, hscl, hsda⟩ := step_lines_running h hr hb
    obtain ⟨v, hv⟩ := inv.run_sda hb
    have hc : s.sclOe = false := by rw [inv.run_scl hb, hrun, hk]; rfl
    have hdriven : s.sdaOe = true := by rw [hv, hrun, hk]; rfl
    rw [hrun, hk] at hd
    obtain ⟨rfl, -⟩ := List.cons.inj hd
    simp [drivesStart, drivesStop, busStop, State.sdaLevel, hk, hc, hdriven, hscl, hsda, sclAfter, sdaAfter]
  · obtain ⟨hstart, hstop⟩ := drives_none_of_stillUnlessSclLow inv hb hr h hrun stop_stillUnlessSclLow
      (by simpa [prog, stopProg_DR_iff] using hk)
    simp [hstart, hstop, busStop, hk]

end Sys2Proof.Machine
end

section
/-! The statements about the encoding (spec/30_encoding.md): a word is its `op` and its `arg`, what the decoder and the
reserved bits are for each `op`, and the assembler's line read back. -/

namespace Sys2Proof

/-! ### A word is its two fields -/

section Word

variable (v w : CmdWord)

/-- R42: `op` above `arg`, with no bit left over. -/
theorem opField_append_argField : opField w ++ argField w = w := BitVec.extractLsb'_append_extractLsb'

@[simp] theorem opField_append (op : BitVec 2) (arg : Byte) : opField (op ++ arg) = op :=
  BitVec.extractLsb'_append_eq_left

@[simp] theorem argField_append (op : BitVec 2) (arg : Byte) : argField (op ++ arg) = arg :=
  BitVec.extractLsb'_append_eq_right

@[simp] theorem opField_and : opField (v &&& w) = opField v &&& opField w := BitVec.extractLsb'_and

@[simp] theorem argField_and : argField (v &&& w) = argField v &&& argField w := BitVec.extractLsb'_and

variable {v w}

theorem word_eq_iff : v = w ↔ opField v = opField w ∧ argField v = argField w := by
  refine ⟨fun h => h ▸ ⟨rfl, rfl⟩, fun ⟨hop, harg⟩ => ?_⟩
  rw [← opField_append_argField v, ← opField_append_argField w, hop, harg]

theorem argField_getLsbD {k : Nat} (hk : k < 8) : (argField w).getLsbD k = w.getLsbD k := by
  simp [argField, hk]

/-- The other seven bits of `arg` masked out, READ's operand is left (R45). -/
theorem argField_and_one : argField w &&& 1#8 = (BitVec.ofBool (ackBit w)).setWidth 8 := by
  rw [BitVec.and_one_eq_setWidth_ofBool_getLsbD, argField_getLsbD (by decide), ackBit]

theorem opField_cases (w : CmdWord) : opField w = 0#2 ∨ opField w = 1#2 ∨ opField w = 2#2 ∨ opField w = 3#2 := by
  generalize opField w = op
  decide +revert

/-- A mask over the whole of `op` leaves it. -/
theorem and_opMask (m : Byte) : w &&& (3#2 ++ m) = opField w ++ (argField w &&& m) := by
  have hop : opField w &&& 3#2 = opField w := BitVec.and_allOnes
  simp [word_eq_iff, hop]

/-! ### The decoder and the reserved bits, by `op` -/

theorem decode_of_op_start (h : opField w = 0#2) : decode w = .start := by simp [decode, h]

theorem decode_of_op_stop (h : opField w = 1#2) : decode w = .stop := by simp [decode, h]

theorem decode_of_op_write (h : opField w = 2#2) : decode w = .write (argField w) := by simp [decode, h]

theorem decode_of_op_read (h : opField w = 3#2) : decode w = if ackBit w then .readAck else .readNack := by
  simp [decode, h]

/-! No reserved bit is a bit of `op` (R46). -/

theorem reservedMask_of_op_start (h : opField w = 0#2) : reservedMask w = 0#2 ++ 0xFF#8 := by
  simp [reservedMask, show w.extractLsb' 8 2 = 0#2 from h]

theorem reservedMask_of_op_stop (h : opField w = 1#2) : reservedMask w = 0#2 ++ 0xFF#8 := by
  simp [reservedMask, show w.extractLsb' 8 2 = 1#2 from h]

theorem reservedMask_of_op_write (h : opField w = 2#2) : reservedMask w = 0#2 ++ 0x00#8 := by
  simp [reservedMask, show w.extractLsb' 8 2 = 2#2 from h]

theorem reservedMask_of_op_read (h : opField w = 3#2) : reservedMask w = 0#2 ++ 0xFE#8 := by
  simp [reservedMask, show w.extractLsb' 8 2 = 3#2 from h]

/-- Clearing bits of `arg` leaves `op`. -/
theorem and_not_argMask (m : Byte) : w &&& ~~~(0#2 ++ m) = opField w ++ (argField w &&& ~~~m) := by
  have hnot : ~~~(0#2 ++ m : CmdWord) = 3#2 ++ ~~~m := BitVec.not_append
  rw [hnot, and_opMask]

/-! ### The encoder -/

/-- WRITE's word in its fields (R44). -/
theorem encode_write (b : Byte) : encode (.write b) = 2#2 ++ b :=
  calc 0x200#10 ||| b.setWidth 10
    _ = (2#2 ++ 0#8) ||| (0#2 ++ b) := congrArg _ (BitVec.setWidth_eq_append (by decide))
    _ = (2#2 ||| 0#2) ++ (0#8 ||| b) := BitVec.or_append
    _ = 2#2 ++ b := by simp

theorem decode_encode (i : Instr) : decode (encode i) = i := by
  cases i with
  | start => rfl
  | stop => rfl
  | write b => rw [encode_write, decode_of_op_write (opField_append ..), argField_append]
  | readNack => rfl
  | readAck => rfl

/-- The canonical word of what a word decodes to is the word with its reserved bits 0 (R46, R49). -/
theorem encode_decode (w : CmdWord) : encode (decode w) = w &&& ~~~reservedMask w := by
  rcases opField_cases w with h | h | h | h
  · rw [decode_of_op_start h, reservedMask_of_op_start h, and_not_argMask, h]
    simp [encode]
  · rw [decode_of_op_stop h, reservedMask_of_op_stop h, and_not_argMask, h]
    simp [encode]
  · rw [decode_of_op_write h, reservedMask_of_op_write h, and_not_argMask, encode_write, h]
    exact congrArg _ BitVec.and_allOnes.symm
  · rw [decode_of_op_read h, reservedMask_of_op_read h, and_not_argMask, h,
      show ~~~0xFE#8 = 1#8 from rfl, argField_and_one]
    cases ackBit w <;> rfl

/-- Clearing the reserved bits changes no command (R46). -/
theorem decode_clearReserved (w : CmdWord) : decode (w &&& ~~~reservedMask w) = decode w := by
  rw [← encode_decode, decode_encode]

theorem reservedZero_encode (i : Instr) : reservedZero (encode i) = true := by
  cases i with
  | start => rfl
  | stop => rfl
  | write b =>
    rw [reservedZero, encode_write, reservedMask_of_op_write (opField_append ..)]
    simp
  | readNack => rfl
  | readAck => rfl

/-! ### Numbers as words -/

theorem decodeNat_of_lt {n : Nat} (h : n < 1024) : decodeNat n = .ok (decode (BitVec.ofNat 10 n)) := by
  simp [decodeNat, wordFits, h]

/-- A table word of 16 bits holds every command word unchanged (log entry 13). -/
theorem decodeTableWord_toNat (w : CmdWord) : decodeTableWord 16 w.toNat = some (decode w) := by
  have hw : w.toNat < 1024 := w.isLt
  have hmod : w.toNat % 2 ^ 16 = w.toNat := Nat.mod_eq_of_lt (by omega)
  rw [decodeTableWord, hmod, decodeNat_of_lt hw, BitVec.ofNat_toNat, BitVec.setWidth_eq]

/-! ### The opcode table -/

/-- A row whose mask covers `op` asks for its `op` and for its masked bits of `arg` (R43). -/
theorem selects_iff {r : OpcodeRow} {op : BitVec 2} {m p : Byte} (hm : r.mask = 3#2 ++ m) (hp : r.pattern = op ++ p) :
    r.selects w = true ↔ opField w = op ∧ argField w &&& m = p := by
  rw [OpcodeRow.selects, beq_iff_eq, hm, hp, and_opMask, word_eq_iff]
  simp only [opField_append, argField_append]

theorem startRow_selects : Instr.start.row.selects w = true ↔ opField w = 0#2 := by
  simp [selects_iff (r := Instr.start.row) (op := 0#2) (m := 0#8) (p := 0#8) rfl rfl]

theorem stopRow_selects : Instr.stop.row.selects w = true ↔ opField w = 1#2 := by
  simp [selects_iff (r := Instr.stop.row) (op := 1#2) (m := 0#8) (p := 0#8) rfl rfl]

theorem writeRow_selects (b : Byte) : (Instr.write b).row.selects w = true ↔ opField w = 2#2 := by
  simp [selects_iff (r := (Instr.write b).row) (op := 2#2) (m := 0#8) (p := 0#8) rfl rfl]

theorem readNackRow_selects : Instr.readNack.row.selects w = true ↔ opField w = 3#2 ∧ ackBit w = false := by
  rw [selects_iff (op := 3#2) (m := 1#8) (p := 0#8) rfl rfl, argField_and_one]
  cases ackBit w <;> simp

theorem readAckRow_selects : Instr.readAck.row.selects w = true ↔ opField w = 3#2 ∧ ackBit w = true := by
  rw [selects_iff (op := 3#2) (m := 1#8) (p := 1#8) rfl rfl, argField_and_one]
  cases ackBit w <;> simp

theorem opcodeRows_eq (b : Byte) : opcodeRows =
    [Instr.start.row, Instr.stop.row, (Instr.write b).row, Instr.readNack.row, Instr.readAck.row] := rfl

theorem opcodeRows_filter_selects (w : CmdWord) : opcodeRows.filter (fun r => r.selects w) = [(decode w).row] := by
  simp only [opcodeRows_eq (argField w), List.filter_cons, List.filter_nil, startRow_selects, stopRow_selects,
    writeRow_selects, readNackRow_selects, readAckRow_selects]
  rcases opField_cases w with h | h | h | h
  · simp [h, decode_of_op_start h]
  · simp [h, decode_of_op_stop h]
  · simp [h, decode_of_op_write h]
  · cases hack : ackBit w <;> simp [h, decode_of_op_read h, hack]

end Word

end Sys2Proof

namespace Sys2Proof.Machine

/-! ### A step does not read the reserved bits of the latched word -/

section Reserved

variable (s : State)

/-- The state with the reserved bits of its latched word 0. -/
def State.clearReserved (s : State) : State := { s with lcmd := s.lcmd &&& ~~~reservedMask s.lcmd }

@[simp] theorem clearReserved_running : s.clearReserved.running = s.running := decode_clearReserved s.lcmd

@[simp] theorem clearReserved_clearReserved : s.clearReserved.clearReserved = s.clearReserved := by
  simp only [State.clearReserved, ← encode_decode, decode_encode]

theorem effect_clearReserved (P : Params) (u : MicroOp) :
    u.effect P s.clearReserved = (u.effect P s).clearReserved := by
  cases u with
  | W => exact (apply_ite State.clearReserved _ (s.setWcnt (s.wcnt + 1)) (s.setWcnt 0)).symm
  | _ => rfl

theorem finishes_clearReserved (P : Params) (u : MicroOp) : u.finishes P s.clearReserved = u.finishes P s := by
  cases u <;> rfl

theorem edgeResult_clearReserved (P : Params) (u : MicroOp) (i : Instr) (rest : List MicroOp) :
    edgeResult P u s.clearReserved (atEndOf i) rest = (edgeResult P u s (atEndOf i) rest).clearReserved := by
  have heffect : u.effect P s.clearReserved.clearDone = (u.effect P s.clearDone).clearReserved :=
    effect_clearReserved s.clearDone P u
  simp only [edgeResult, finishes_clearReserved, heffect]
  split
  · split
    · cases i <;> rfl
    · rfl
  · rfl

theorem exec_clearReserved (i : Instr) : exec i s.clearReserved = mapNext State.clearReserved (exec i s) := by
  cases hd : (prog Config.params i).drop s.upc.toNat with
  | nil =>
    have hpast := List.drop_eq_nil_iff.mp hd
    rw [exec_eq, exec_eq, runCommand_past _ _ hpast, runCommand_past _ s.clearReserved hpast]
    rfl
  | cons u rest =>
    rw [exec_of_drop s hd, exec_of_drop s.clearReserved hd]
    exact congrArg _ (edgeResult_clearReserved ..)

theorem step_clearReserved :
    mapNext State.clearReserved (step s) = mapNext State.clearReserved (step s.clearReserved) := by
  have hrst : s.clearReserved.input.rst = s.input.rst := rfl
  have hlaw : s.clearReserved.lawful = s.lawful := rfl
  have hbusy : s.clearReserved.busy = s.busy := rfl
  have hvalid : s.clearReserved.input.cmdValid = s.input.cmdValid := rfl
  simp only [step, edge, hrst, hlaw, hbusy, hvalid, clearReserved_running, exec_clearReserved]
  split_ifs
  · rfl
  · rfl
  · cases exec s.running s with
    | next t => exact congrArg Host.Outcome.next (clearReserved_clearReserved t.tick).symm
    | fault r => rfl
    | refused r => rfl
  · rfl
  · exact congrArg Host.Outcome.next (clearReserved_clearReserved s.clearDone.tick).symm

end Reserved

/-! ### The assembler -/

section Assembler

variable {l w : List Char}

/-- Without a `;` there is no comment. -/
theorem stripComment_append (h : ';' ∉ l) (r : List Char) : stripComment (l ++ r) = l ++ stripComment r := by
  induction l with
  | nil => rfl
  | cons c cs ih =>
    obtain ⟨hc, hcs⟩ := not_or.mp (List.mem_cons.not.mp h)
    simp [stripComment, Ne.symm hc, ih hcs]

theorem stripComment_of_not_mem (h : ';' ∉ l) : stripComment l = l := by
  simpa [stripComment] using stripComment_append h []

/-- A trailing blank separates nothing. -/
theorem wordsFrom_append_blank (w l : List Char) : wordsFrom w (l ++ [' ']) = wordsFrom w l := by
  induction l generalizing w with
  | nil => simp [wordsFrom]
  | cons c cs ih => simp [wordsFrom, ih]

/-- Characters that are no blanks go into the word being read. -/
theorem wordsFrom_append (h : ∀ c ∈ l, ¬(c = ' ' ∨ c = '\t')) (w r : List Char) :
    wordsFrom w (l ++ r) = wordsFrom (l.reverse ++ w) r := by
  induction l generalizing w with
  | nil => rfl
  | cons c cs ih =>
    obtain ⟨hc, hcs⟩ := List.forall_mem_cons.mp h
    rw [List.cons_append, wordsFrom, if_neg hc, ih hcs, List.reverse_cons, List.append_assoc, List.singleton_append]

/-- Two words with a blank between them. -/
theorem wordsFrom_pair {r : List Char} (hl : ∀ c ∈ l, ¬(c = ' ' ∨ c = '\t')) (hr : ∀ c ∈ r, ¬(c = ' ' ∨ c = '\t'))
    (hl0 : l ≠ []) (hr0 : r ≠ []) : wordsFrom [] (l ++ ' ' :: r) = [l, r] := by
  have hfirst : wordsFrom [] (l ++ ' ' :: r) = l :: wordsFrom [] r := by
    rw [wordsFrom_append hl]
    simp [wordsFrom, hl0]
  have hsecond : wordsFrom [] r = [r] := by
    rw [← r.append_nil, wordsFrom_append hr]
    simp [wordsFrom, hr0]
  rw [hfirst, hsecond]

/-- A comment after a blank changes nothing (R49). -/
theorem parseLine_comment (h : ';' ∉ l) (c : List Char) : parseLine (l ++ [' ', ';'] ++ c) = parseLine l := by
  have hwith : stripComment (l ++ [' ', ';'] ++ c) = l ++ [' '] := by
    rw [List.append_assoc, stripComment_append h]
    rfl
  rw [parseLine, parseLine, hwith, stripComment_of_not_mem h, wordsFrom_append_blank]

theorem hexDigit_hexChar : ∀ d < 16, hexDigit? (hexChar d) = some d := by decide

theorem hexChar_plain : ∀ d < 16, hexChar d ≠ ' ' ∧ hexChar d ≠ '\t' ∧ hexChar d ≠ ';' := by decide

/-- WRITE's immediate as the printer writes it (log entry 9). -/
def printImm (n : Nat) : List Char := ['0', 'x', hexChar (n / 16), hexChar (n % 16)]

theorem printLine_write (b : Byte) : printLine (.write b) = mnemonicWrite ++ ' ' :: printImm b.toNat := rfl

variable {n : Nat}

theorem numeral_printImm (hn : n < 256) : numeral? (printImm n) = some n := by
  have hhi : n / 16 < 16 := by omega
  have hlo : n % 16 < 16 := by omega
  have hvalue : n / 16 * 16 + n % 16 = n := by omega
  simp [numeral?, printImm, digits?, hexDigit_hexChar _ hhi, hexDigit_hexChar _ hlo, hhi, hlo, hvalue]

theorem printImm_no_blank (hn : n < 256) : ∀ c ∈ printImm n, ¬(c = ' ' ∨ c = '\t') := by
  have hhi := hexChar_plain (n / 16) (by omega)
  have hlo := hexChar_plain (n % 16) (by omega)
  simp [printImm, hhi, hlo]

theorem printLine_no_comment (i : Instr) : ';' ∉ printLine i := by
  cases i with
  | write b =>
    obtain ⟨-, -, hhi⟩ := hexChar_plain (b.toNat / 16) (by omega)
    obtain ⟨-, -, hlo⟩ := hexChar_plain (b.toNat % 16) (by omega)
    simp [printLine_write, mnemonicWrite, printImm, hhi.symm, hlo.symm]
  | _ => decide

theorem writeCommand_printImm (b : Byte) : writeCommand [printImm b.toNat] = .ok (.write b) := by
  simp [writeCommand, numeral_printImm b.isLt, immFits, b.isLt]

theorem parseLine_printLine (i : Instr) : parseLine (printLine i) = .ok i := by
  cases i with
  | write b =>
    have hmnemonic : ∀ c ∈ mnemonicWrite, ¬(c = ' ' ∨ c = '\t') := by simp [mnemonicWrite]
    have hwords : wordsFrom [] (mnemonicWrite ++ ' ' :: printImm b.toNat) = [mnemonicWrite, printImm b.toNat] :=
      wordsFrom_pair hmnemonic (printImm_no_blank b.isLt) (by decide) (List.cons_ne_nil _ _)
    rw [parseLine, stripComment_of_not_mem (printLine_no_comment _), printLine_write, hwords]
    exact writeCommand_printImm b
  | _ => rfl

end Assembler

/-! ### The obligations -/

/-- Settles O3: `encode` writes the fields `decode` reads, and what it leaves out is reserved, for each `op`. -/
theorem decodeAndEncodeAgree : Obligations.DecodeAndEncodeAgree := by
  refine ⟨fun i => ⟨decode_encode i, ?_⟩, encode_decode⟩
  rw [decodeTableWord_toNat, decode_encode]

/-- Settles O2: the canonical word decodes to the same command, and the command is all a step reads of the word. -/
theorem reservedBitsAreIgnored : Obligations.ReservedBitsAreIgnored :=
  ⟨fun _ => ⟨reservedMask_of_op_start, reservedMask_of_op_stop, reservedMask_of_op_write, reservedMask_of_op_read⟩,
    decode_clearReserved, step_clearReserved, reservedZero_encode⟩

/-- Settles O53: a printed line has no `;` of its own, and its one immediate is two hexadecimal digits. -/
theorem assemblerReadsBackWhatItPrints : Obligations.AssemblerReadsBackWhatItPrints := fun i c =>
  ⟨parseLine_printLine i, by rw [parseLine_comment (printLine_no_comment i), parseLine_printLine],
    by rw [assembleLine, parseLine_printLine]⟩

/-- Settles O1, by the word's `op` and, for a READ, its operand. -/
theorem everyWordSelectsOneCommand : Obligations.EveryWordSelectsOneCommand :=
  ⟨opcodeRows_filter_selects, fun _ => decodeNat_of_lt⟩

/-- Settles O4: bit `k` of `arg` is bit `k` of the word. -/
theorem operandsAreTheirFields : Obligations.OperandsAreTheirFields := fun w =>
  ⟨fun h => ⟨argField w, decode_of_op_write h, fun _ => argField_getLsbD⟩, decode_of_op_read⟩

/-- Settles O5, by evaluation of the eleven words. -/
theorem decodeVectorsHold : Obligations.DecodeVectorsHold := by
  unfold Obligations.DecodeVectorsHold
  decide

/-- Settles O51: each expansion is a fixed list of commands whose operands the encoder passes through. -/
theorem pseudoInstructionsExpand : Obligations.PseudoInstructionsExpand := by
  refine ⟨fun _ _ _ => rfl, fun _ _ => rfl, fun _ => rfl, fun _ => rfl, ⟨rfl, rfl, rfl, rfl⟩, fun K p => ?_⟩
  cases p <;> rfl

end Sys2Proof.Machine
end

section
/-! The statements about command execution (spec/40_command_execution.md): one edge of a running command, the step as
the spec assembles it, a command's sequence edge by edge, its duration, and the independence of SDA. -/

namespace Sys2Proof.Machine

open Sys2Proof.Safety

/-! ### One edge of a running command -/

section RunningEdge

variable {s t : State} {i : Instr} {u : MicroOp} {rest : List MicroOp}

/-- Only a `W` takes more than one edge, so any other micro-op has finished at its first (R56). -/
theorem finishes_of_ne_wait {P : Params} (h : u ≠ .W) : u.finishes P s = true := by simp [finishes_eq, h]

/-- Whether a micro-op finishes depends on the wait counter alone. -/
theorem finishes_congr (P : Params) (u : MicroOp) (h : s.wcnt = t.wcnt) : u.finishes P s = u.finishes P t := by
  simp only [finishes_eq, h]

/-- Something follows a micro-op that is no `W`, for every sequence ends with one (R57). -/
theorem rest_ne_nil_of_ne_wait (hd : (prog Config.params i).drop s.upc.toNat = u :: rest) (h : u ≠ .W) :
    rest ≠ [] := by
  rintro rfl
  exact h (last_is_wait hd)

/-- No other micro-op than a `W` completes a command. -/
theorem edgeResult_of_ne_wait (hd : (prog Config.params i).drop s.upc.toNat = u :: rest) (h : u ≠ .W) :
    (edgeResult Config.params u s (atEndOf i) rest).upc = s.upc + 1#6 ∧
    (edgeResult Config.params u s (atEndOf i) rest).wcnt = s.wcnt ∧
    (edgeResult Config.params u s (atEndOf i) rest).done = false := by
  have hrest := rest_ne_nil_of_ne_wait hd h
  simp [h, hrest, finishes_of_ne_wait]

/-- At the last cycle of the last micro-op the edge is a completion (R57). -/
theorem exec_completes (hlen : s.upc.toNat + 1 = (prog Config.params i).length)
    (hw : s.wcnt + 1 = Config.params.delay) :
    exec i s = .next { s with
      busy := false, done := true, upc := 0#6, wcnt := 0, rdata := if i.isRead then s.acc else s.rdata } := by
  obtain ⟨u, rest, hd⟩ := drop_of_lt (us := prog Config.params i) (n := s.upc.toNat) (by omega)
  obtain rfl : rest = [] := List.eq_nil_of_length_eq_zero (by have := (drop_eq_cons hd).2; omega)
  obtain rfl := last_is_wait hd
  rw [exec_of_drop s hd]
  refine congrArg _ (State.ext ?_ ?_ ?_ ?_ ?_ ?_ ?_ ?_ ?_ ?_ ?_) <;>
    simp [finishes_eq, hw, sclAfter, sdaAfter]

/-- The frame all commands share: what one edge leaves alone, and which micro-op changes what it does change. -/
theorem exec_frame (h : exec i s = .next t) :
    t.lcmd = s.lcmd ∧ t.inputs = s.inputs ∧ t.cycle = s.cycle ∧ (t.done = false → t.busy = s.busy) ∧
    (t.sclOe ≠ s.sclOe → (prog Config.params i)[s.upc.toNat]? = some .CL ∨
      (prog Config.params i)[s.upc.toNat]? = some .CR) ∧
    (t.wcnt ≠ s.wcnt → t.done = true ∨ (prog Config.params i)[s.upc.toNat]? = some .W) := by
  obtain ⟨u, rest, hd, rfl⟩ := exec_next h
  have hcur := (drop_eq_cons hd).1
  refine ⟨by simp, by simp, by simp, fun hdone => ?_, fun hne => ?_, fun hne => .inr ?_⟩
  · rw [edgeResult_done] at hdone
    simp [hdone]
  · rw [edgeResult_sclOe] at hne
    simpa [hcur] using sclAfter_ne hne
  · have hu : u = .W := by
      by_contra hu
      exact hne (edgeResult_of_ne_wait hd hu).2.1
    rw [hcur, hu]

/-- SDA changes only where a command acts on it. -/
theorem exec_sdaOe_ne (h : exec i s = .next t) (hne : t.sdaOe ≠ s.sdaOe) :
    (prog Config.params i)[s.upc.toNat]? = some .DL ∨ (prog Config.params i)[s.upc.toNat]? = some .DR ∨
      ∃ x, (prog Config.params i)[s.upc.toNat]? = some (.DS x) := by
  obtain ⟨u, rest, hd, rfl⟩ := exec_next h
  rw [edgeResult_sdaOe] at hne
  simpa [(drop_eq_cons hd).1] using sdaAfter_ne hne

/-- The accumulator changes only at a sample. -/
theorem exec_acc_ne (h : exec i s = .next t) (hne : t.acc ≠ s.acc) :
    (prog Config.params i)[s.upc.toNat]? = some .SMP := by
  obtain ⟨u, rest, hd, rfl⟩ := exec_next h
  have hu : u = .SMP := by
    by_contra hu
    exact hne (by simp [hu])
  rw [(drop_eq_cons hd).1, hu]

/-- `rdata` is written only by a READ's completion (R75). -/
theorem exec_keeps_rdata (h : exec i s = .next t) (hkeep : i.isRead = false ∨ t.done = false) :
    t.rdata = s.rdata := by
  obtain ⟨u, rest, hd, rfl⟩ := exec_next h
  rw [edgeResult_done] at hkeep
  rw [edgeResult_rdata]
  rcases hkeep with hkeep | hkeep <;> simp [hkeep]

/-- Only a READ samples (R70, R71). -/
theorem not_sample_of_not_read (P : Params) (h : i.isRead = false) : .SMP ∉ prog P i := by
  cases i with
  | start => simp [prog, startProg]
  | stop => simp [prog, stopProg]
  | write b =>
    rw [prog, writeProg, writeAckSlot]
    cases P.wackRelease <;> simp [writeCells, writeCell]
  | readNack => cases h
  | readAck => cases h

/-- A READ sends no data bit (R71 to R73). -/
theorem not_send_of_read (P : Params) (h : i.isRead = true) (x : Bool) : .DS x ∉ prog P i := by
  cases i with
  | readNack => simp [prog, readNackProg, readBody, readCell]
  | readAck => simp [prog, readAckProg, readBody, readCell]
  | _ => cases h

/-- A word selects a READ by its `op` (R43). -/
theorem isRead_decode_iff (w : CmdWord) : (decode w).isRead = true ↔ opField w = 0b11#2 := by
  rcases opField_cases w with h | h | h | h
  · simp [decode_of_op_start h, h, Instr.isRead]
  · simp [decode_of_op_stop h, h, Instr.isRead]
  · simp [decode_of_op_write h, h, Instr.isRead]
  · cases hack : ackBit w <;> simp [decode_of_op_read h, h, hack, Instr.isRead]

end RunningEdge

/-! ### The step -/

section Step

variable {s t : State}

/-- Undisturbed, a busy engine's step is its command's meaning (R55, R56). -/
theorem step_exec (hr : s.input.rst = false) (hl : s.lawful = true) (hb : s.busy = true) :
    step s = mapNext State.tick (exec s.running s) := by
  simp [step, edge, hr, hl, hb]

/-- A step without reset that answers a state kept the law (R19). -/
theorem lawful_of_step (h : step s = .next t) (hr : s.input.rst = false) : s.lawful = true := by
  by_contra hl
  rw [step_unlawful hr (by simpa using hl)] at h
  cases h

theorem withFetchWord_lawful (nbits w : Nat) : (s.withFetchWord nbits w).lawful = true := by
  cases hs : s.sdaOe <;> simp [State.lawful, State.input, State.withFetchWord, State.withLatched, restInput, hs]

/-- A word from outside is latched as the command the table's numbering reads in it (log entries 6 and 13). -/
theorem withFetchWord_running {nbits w : Nat} {i : Instr} (h : decodeTableWord nbits w = some i) :
    (s.withFetchWord nbits w).running = i := by
  simp only [decodeTableWord, decodeNat] at h
  split at h
  · next hok =>
    split at hok
    · exact (Except.ok.inj hok).trans (Option.some.inj h)
    · cases hok
  · cases h

/-- `s` with the ports `p` in the coming cycle and `ps` after it (log entry 1). -/
def State.withPorts (s : State) (p : PortIn) (ps : List PortIn) : State := { s with inputs := p :: ps }

@[simp] theorem withPorts_input (p : PortIn) (ps : List PortIn) : (s.withPorts p ps).input = p := rfl

/-- What one edge of a command takes from the ports is the level of SDA. -/
theorem exec_tick_withPorts {p q : PortIn} (ps : List PortIn) (h : p.sdaIn = q.sdaIn) (i : Instr) :
    mapNext State.tick (exec i (s.withPorts p ps)) = mapNext State.tick (exec i (s.withPorts q ps)) := by
  cases hd : (prog Config.params i).drop s.upc.toNat with
  | nil =>
    have hpast := List.drop_eq_nil_iff.mp hd
    rw [exec_eq, exec_eq, runCommand_past _ (s.withPorts p ps) hpast, runCommand_past _ (s.withPorts q ps) hpast]
  | cons u rest =>
    rw [exec_of_drop (s.withPorts p ps) hd, exec_of_drop (s.withPorts q ps) hd]
    refine congrArg Host.Outcome.next (State.ext ?_ ?_ ?_ ?_ ?_ ?_ ?_ ?_ ?_ ?_ ?_) <;>
      simp [State.withPorts, State.input, finishes_eq, h]

/-- A running engine's step without reset reads SDA alone of the ports. -/
theorem step_withPorts_of_busy {p q : PortIn} (ps : List PortIn) (hb : s.busy = true) (hp : p.rst = false)
    (hq : q.rst = false) (hsda : p.sdaIn = q.sdaIn) : step (s.withPorts p ps) = step (s.withPorts q ps) := by
  have hlaw : (s.withPorts p ps).lawful = (s.withPorts q ps).lawful :=
    congrArg (fun level => !(s.sdaOe && level)) hsda
  cases hl : (s.withPorts p ps).lawful with
  | false => rw [step_unlawful (s := s.withPorts p ps) hp hl, step_unlawful (s := s.withPorts q ps) hq (hlaw ▸ hl)]
  | true =>
    rw [step_exec (s := s.withPorts p ps) hp hl hb, step_exec (s := s.withPorts q ps) hq (hlaw ▸ hl) hb]
    exact exec_tick_withPorts ps hsda s.running

/-! R65's function, by the kinds of edge. -/

theorem wholeStep_reset (P : Params) (h : s.input.rst = true) : wholeStep P s s.input = some s.resetEdge := by
  simp only [wholeStep, h, if_true]
  rfl

theorem wholeStep_accept (P : Params) (hr : s.input.rst = false) (hb : s.busy = false)
    (hv : s.input.cmdValid = true) : wholeStep P s s.input = some s.accept := by
  simp [wholeStep, hr, hb, hv, State.accept]

theorem wholeStep_idle (P : Params) (hr : s.input.rst = false) (hb : s.busy = false)
    (hv : s.input.cmdValid = false) : wholeStep P s s.input = some s.clearDone := by
  simp [wholeStep, hr, hb, hv, State.clearDone]

/-- R65's case on the micro-op is the micro-op's effect, and whether it finishes. -/
theorem wholeCase_eq (P : Params) (u : MicroOp) (s : State) :
    wholeCase P u s { s with done := false } s.input.sdaIn = (u.effect P s.clearDone, u.finishes P s) := by
  cases u with
  | W =>
    have hiff : s.wcnt < P.delay - 1 ↔ s.wcnt + 1 < P.delay := by omega
    by_cases hw : s.wcnt + 1 < P.delay <;>
      simp [wholeCase, MicroOp.effect, MicroOp.finishes, hiff, hw, State.clearDone, State.setWcnt]
  | _ => rfl

/-- Where a command completes, R65 leaves `wcnt` to the closing wait, which has cleared it (R56, R57). -/
theorem wholeStep_run {u : MicroOp} {rest : List MicroOp} (hr : s.input.rst = false) (hb : s.busy = true)
    (hd : (prog Config.params s.running).drop s.upc.toNat = u :: rest) :
    wholeStep Config.params s s.input = some (edgeResult Config.params u s (atEndOf s.running) rest) := by
  obtain ⟨hcur, hlen⟩ := drop_eq_cons hd
  have hop : (opField s.lcmd == 0b11#2) = s.running.isRead := by
    rw [Bool.eq_iff_iff, beq_iff_eq]
    exact (isRead_decode_iff s.lcmd).symm
  rw [State.running] at hcur hlen
  rw [wholeStep, if_neg (by simp [hr])]
  dsimp only
  rw [if_neg (by simp [hb])]
  simp only [hcur, wholeCase_eq, edgeResult, hop, ← hlen]
  cases hf : u.finishes Config.params s with
  | false => simp
  | true =>
    cases rest with
    | cons v vs => simp [State.advance]
    | nil =>
      obtain rfl := last_is_wait hd
      have hw : ¬ s.wcnt + 1 < Config.params.delay := by simpa [finishes_eq] using hf
      cases hread : s.running.isRead <;>
        simp [atEndOf, hread, MicroOp.effect, hw, State.complete, State.returnByte, State.setWcnt]

/-- Where R65 gives a running engine a next state, `upc` indexes a micro-op. -/
theorem drop_of_wholeStep (hr : s.input.rst = false) (hb : s.busy = true)
    (h : wholeStep Config.params s s.input = some t) :
    ∃ u rest, (prog Config.params s.running).drop s.upc.toNat = u :: rest := by
  cases hcur : (prog Config.params (decode s.lcmd))[s.upc.toNat]? with
  | none => simp [wholeStep, hr, hb, hcur] at h
  | some u => exact ⟨u, drop_of_getElem? u hcur⟩

/-- The passing of the cycle moves the model's own fields alone (log entry 1). -/
theorem engineOf_tick (s : State) : engineOf s.tick = engineOf s := rfl

end Step

/-! ### A sequence edge by edge -/

section Sequence

variable {f : Bool → MicroOp → Bool} {us rest : List MicroOp} {u : MicroOp} {v : Bool} {n m : Nat}

/-- A line that a micro-op's action takes to a fixed level stands there after any number of repetitions. -/
theorem foldl_replicate (hf : ∀ v u, f (f v u) u = f v u) (hn : 0 < n) :
    (List.replicate n u).foldl f v = f v u := by
  induction n generalizing v with
  | zero => exact absurd hn (Nat.lt_irrefl 0)
  | succ n ih =>
    rw [List.replicate_succ, List.foldl_cons]
    cases n with
    | zero => rfl
    | succ n => rw [ih n.succ_pos, hf]

/-- A sequence leaves a line where its expansion edge by edge does. -/
theorem foldl_edgesOf (hf : ∀ v u, f (f v u) u = f v u) (us : List MicroOp) (v : Bool) :
    (edgesOf Config.params us).foldl f v = us.foldl f v := by
  induction us generalizing v with
  | nil => rfl
  | cons u us ih =>
    rw [edgesOf_cons, List.foldl_append, foldl_replicate hf (edges_pos u), ih, List.foldl_cons]

/-- Within the edges a micro-op takes, a line stands where the micro-ops before it have left it: the one micro-op that
takes several edges moves no line (R52). -/
theorem foldl_take_edgesOf (hf : ∀ v u, f (f v u) u = f v u) (hW : ∀ v, f v .W = v)
    (hd : us.drop n = u :: rest) (hm : m < u.edges Config.params) :
    ((edgesOf Config.params us).take (lengthInEdges Config.params (us.take n) + m)).foldl f v =
      (us.take n).foldl f v := by
  rw [edgesOf_split Config.params hd, ← edgesOf_length, List.take_length_add_append,
    List.take_append_of_le_length (by rw [List.length_replicate]; exact hm.le), List.take_replicate,
    Nat.min_eq_left hm.le, List.foldl_append, foldl_edgesOf hf]
  cases m with
  | zero => rfl
  | succ m =>
    obtain rfl : u = .W := by
      by_contra hu
      cases u <;> simp [MicroOp.edges] at hm hu
    rw [foldl_replicate hf m.succ_pos, hW]

theorem sclAlong_edgesOf (us : List MicroOp) (v : Bool) :
    sclAlong v (edgesOf Config.params us) = sclAlong v us :=
  foldl_edgesOf (fun v u => sclAfter_sclAfter u v) us v

theorem sdaAlong_edgesOf (us : List MicroOp) (v : Bool) :
    sdaAlong v (edgesOf Config.params us) = sdaAlong v us :=
  foldl_edgesOf (fun v u => sdaAfter_sdaAfter u v) us v

/-- The level of `sda_oe` a whole sequence leaves, whatever level it finds (R62). -/
def sdaLeft (P : Params) : Instr → Bool
  | .start => true
  | .stop => false
  | .write b => if P.wackRelease then false else !b.getLsbD 0
  | .readNack => false
  | .readAck => true

theorem sdaAlong_prog (P : Params) (i : Instr) (v : Bool) : sdaAlong v (prog P i) = sdaLeft P i := by
  cases i with
  | write b =>
    rw [prog, writeProg, sdaAlong_append, writeAckSlot, sdaLeft]
    cases P.wackRelease <;> rfl
  | _ => rfl

/-! R60's table. -/

theorem lengthInEdges_writeCell (P : Params) (x : Bool) : lengthInEdges P (writeCell x) = 3 + 2 * P.delay := by
  simp only [writeCell, lengthInEdges_cons, lengthInEdges_nil, MicroOp.edges]
  omega

theorem duration_start (P : Params) : duration P .start = 2 + P.delay := by
  simp only [duration, prog, startProg, lengthInEdges_cons, lengthInEdges_nil, MicroOp.edges]
  omega

theorem duration_stop (P : Params) : duration P .stop = 4 + 3 * P.delay := by
  simp only [duration, prog, stopProg, lengthInEdges_cons, lengthInEdges_nil, MicroOp.edges]
  omega

theorem duration_write (P : Params) (b : Byte) :
    duration P (.write b) = if P.wackRelease then 27 + 18 * P.delay else 26 + 18 * P.delay := by
  simp only [duration, prog, writeProg, writeCells, lengthInEdges_append, lengthInEdges_writeCell, writeAckSlot]
  cases P.wackRelease <;>
    simp only [Bool.false_eq_true, if_true, if_false, lengthInEdges_cons, lengthInEdges_nil, MicroOp.edges] <;> omega

theorem lengthInEdges_readBody (P : Params) : lengthInEdges P readBody = 26 + 16 * P.delay := by
  simp only [readBody, lengthInEdges_append, lengthInEdges_readCell, lengthInEdges_cons, lengthInEdges_nil,
    MicroOp.edges]
  omega

theorem duration_readNack (P : Params) : duration P .readNack = 28 + 18 * P.delay := by
  simp only [duration, prog, readNackProg, lengthInEdges_append, lengthInEdges_readBody, lengthInEdges_cons,
    lengthInEdges_nil, MicroOp.edges]
  omega

theorem duration_readAck (P : Params) : duration P .readAck = 29 + 18 * P.delay := by
  simp only [duration, prog, readAckProg, lengthInEdges_append, lengthInEdges_readBody, lengthInEdges_cons,
    lengthInEdges_nil, MicroOp.edges]
  omega

end Sequence

/-! ### An undisturbed command to its completion -/

section Undisturbed

variable {w : CmdWord} {s t v : State} {k : Nat}

/-- While the command runs, SCL is where the edges run so far have put it. -/
theorem RunsAt.sclOe_edges (r : RunsAt w s k t) :
    t.sclOe = sclAlong s.sclOe ((edgesOf Config.params (prog Config.params (decode w))).take k) := by
  obtain ⟨u, rest, hd, hw⟩ := r.at_upc
  rw [r.sclOe, r.elapsed]
  exact (foldl_take_edgesOf (fun v u => sclAfter_sclAfter u v) (fun _ => rfl) hd hw).symm

theorem RunsAt.sdaOe_edges (r : RunsAt w s k t) :
    t.sdaOe = sdaAlong s.sdaOe ((edgesOf Config.params (prog Config.params (decode w))).take k) := by
  obtain ⟨u, rest, hd, hw⟩ := r.at_upc
  rw [r.sdaOe, r.elapsed]
  exact (foldl_take_edgesOf (fun v u => sdaAfter_sdaAfter u v) (fun _ => rfl) hd hw).symm

/-- The step that raises `done` has run the whole sequence (R57). -/
theorem RunsAt.lines_at_completion (r : RunsAt w s k t) (h : step t = .next v) (hdone : v.done = true) :
    v.lcmd = w ∧ v.sclOe = sclAlong s.sclOe (prog Config.params (decode w)) ∧
      v.sdaOe = sdaAlong s.sdaOe (prog Config.params (decode w)) := by
  cases step_cases h with
  | reset _ eq => simp [eq] at hdone
  | accept _ _ _ _ eq => simp [eq] at hdone
  | idle _ _ _ _ eq => simp [eq] at hdone
  | run _ _ _ u rest hd eq =>
    subst eq
    rw [r.running] at hd
    obtain rfl : rest = [] := by
      rw [tick_done, edgeResult_done, Bool.and_eq_true] at hdone
      exact List.isEmpty_iff.mp hdone.2
    have hwhole : prog Config.params (decode w) = (prog Config.params (decode w)).take t.upc.toNat ++ [u] := by
      rw [← hd, List.take_append_drop]
    refine ⟨by simp [r.lcmd], ?_, ?_⟩
    · rw [hwhole, sclAlong_append, ← r.sclOe, tick_sclOe, edgeResult_sclOe]
      rfl
    · rw [hwhole, sdaAlong_append, ← r.sdaOe, tick_sdaOe, edgeResult_sdaOe]
      rfl

/-- A command accepted and then undisturbed completes at its duration, its sequence run (R57, R60). -/
theorem completed_of_undisturbed (h : AcceptsUndisturbed w (duration Config.params (decode w)) s) :
    ∃ t, runFor (duration Config.params (decode w) + 1) s = .next t ∧ t.busy = false ∧ t.done = true ∧ t.lcmd = w ∧
      t.sclOe = sclAlong s.sclOe (prog Config.params (decode w)) ∧
      t.sdaOe = sdaAlong s.sdaOe (prog Config.params (decode w)) := by
  obtain ⟨k, hk⟩ : ∃ k, k + 1 = duration Config.params (decode w) :=
    ⟨_, Nat.sub_add_cancel (duration_pos (decode w))⟩
  obtain ⟨t, r⟩ := runsAt_of_undisturbed h k (by omega)
  obtain ⟨v, hv, hbusy, hdone, -⟩ :=
    r.last_edge (rst_along h.noReset (by omega) r.run) (h.lawful (k + 1) (by omega) t r.run) hk
  exact ⟨v, hk ▸ hv, hbusy, hdone, r.lines_at_completion ((runFor_last r.run).symm.trans hv) hdone⟩

end Undisturbed

/-! ### Two runs that differ in the levels of SDA -/

section ReadData

variable {s t s' t' : State}

/-- The ports of the coming edge, the level of SDA apart. -/
theorem sameButReadData_input (h : SameButReadData s t) :
    s.input.rst = t.input.rst ∧ s.input.cmdValid = t.input.cmdValid ∧ s.input.cmd = t.input.cmd := by
  have hscript := h.script
  cases hs : s.inputs with
  | nil =>
    have ht : t.inputs = [] := by simpa [hs] using hscript.symm
    simp [input_rst, input_cmdValid, input_cmd, State.scheduled, hs, ht, h.cycle]
  | cons p ps =>
    cases ht : t.inputs with
    | nil => simp [hs, ht] at hscript
    | cons q qs =>
      rw [hs, ht, List.map_cons, List.map_cons] at hscript
      simpa [State.input, hs, ht] using (List.cons.inj hscript).1

theorem sameButReadData_tick (h : SameButReadData s t) : SameButReadData s.tick t.tick :=
  { h with
    cycle := congrArg (· + 1) h.cycle
    script := by simpa only [tick_inputs, List.map_tail] using congrArg List.tail h.script }

theorem sameButReadData_resetEdge (h : SameButReadData s t) : SameButReadData s.resetEdge t.resetEdge :=
  ⟨rfl, rfl, rfl, rfl, rfl, rfl, rfl, h.cycle, h.script⟩

theorem sameButReadData_accept (h : SameButReadData s t) : SameButReadData s.accept t.accept :=
  { h with busy := rfl, done := rfl, lcmd := (sameButReadData_input h).2.2, upc := rfl, wcnt := rfl }

theorem sameButReadData_clearDone (h : SameButReadData s t) : SameButReadData s.clearDone t.clearDone :=
  { h with done := rfl }

/-- No micro-op but `SMP` reads SDA, and it writes `acc` alone (R70, R74). -/
theorem sameButReadData_edgeResult (h : SameButReadData s t) (P : Params) (u : MicroOp) (i : Instr)
    (rest : List MicroOp) :
    SameButReadData (edgeResult P u s (atEndOf i) rest) (edgeResult P u t (atEndOf i) rest) := by
  have hf := finishes_congr P u h.wcnt
  constructor
  case script => simpa using h.script
  all_goals simp [hf, h.busy, h.lcmd, h.upc, h.wcnt, h.sclOe, h.sdaOe, h.cycle]

/-- Two engines that differ in the read data path take the same kind of step. -/
theorem step_keeps_sameButReadData (h : SameButReadData s t) (hs : step s = .next s') (ht : step t = .next t') :
    SameButReadData s' t' := by
  obtain ⟨hrst, hvalid, -⟩ := sameButReadData_input h
  have hlawful (hr : s.input.rst = false) : t.lawful = true := lawful_of_step ht (hrst ▸ hr)
  have hnext {v : State} (hv : step t = .next v) : t' = v := Host.Outcome.next.inj (ht.symm.trans hv)
  cases step_cases hs with
  | reset hr eq =>
    rw [eq, hnext (step_reset (hrst ▸ hr))]
    exact sameButReadData_tick (sameButReadData_resetEdge h)
  | run hr _ hb u rest hd eq =>
    have hrun : s.running = t.running := congrArg decode h.lcmd
    rw [hrun, h.upc] at hd
    rw [eq, hrun, hnext (step_run (hrst ▸ hr) (hlawful hr) (h.busy ▸ hb) hd)]
    exact sameButReadData_tick (sameButReadData_edgeResult h _ u _ rest)
  | accept hr _ hb hv eq =>
    rw [eq, hnext (step_accept (hrst ▸ hr) (hlawful hr) (h.busy ▸ hb) (hvalid ▸ hv))]
    exact sameButReadData_tick (sameButReadData_accept h)
  | idle hr _ hb hv eq =>
    rw [eq, hnext (step_idle (hrst ▸ hr) (hlawful hr) (h.busy ▸ hb) (hvalid ▸ hv))]
    exact sameButReadData_tick (sameButReadData_clearDone h)

end ReadData

/-! ### The obligations -/

/-- Settles O40: before the last edge, by where the command stands in its sequence; at it, with the sequence run. -/
theorem commandRunsItsSequence : Obligations.CommandRunsItsSequence := by
  intro w s h k hk
  obtain hlt | rfl := hk.lt_or_eq
  · obtain ⟨t, r⟩ := runsAt_of_undisturbed h k hlt
    exact ⟨t, r.run, r.sclOe_edges, r.sdaOe_edges, by simp [r.busy, hlt], by simp [r.done, hlt.ne], r.lcmd⟩
  · obtain ⟨t, ht, hbusy, hdone, hlcmd, hscl, hsda⟩ := completed_of_undisturbed h
    have hall : (edgesOf Config.params (prog Config.params (decode w))).take (duration Config.params (decode w)) =
        edgesOf Config.params (prog Config.params (decode w)) := List.take_of_length_le (edgesOf_length ..).le
    refine ⟨t, ht, ?_, ?_, by simp [hbusy], by simp [hdone], hlcmd⟩
    · rw [hall, sclAlong_edgesOf, hscl]
    · rw [hall, sdaAlong_edgesOf, hsda]

/-- Settles O41: the table's `N` is the number of edges the sequence takes. -/
theorem commandCompletesAfterNEdges : Obligations.CommandCompletesAfterNEdges := by
  intro w s N hN h
  obtain rfl : N = duration Config.params (decode w) := by
    rw [hN]
    cases decode w with
    | start => exact (duration_start _).symm
    | stop => exact (duration_stop _).symm
    | write b => exact (duration_write _ b).symm
    | readNack => exact (duration_readNack _).symm
    | readAck => exact (duration_readAck _).symm
  refine ⟨fun k hk => ?_, ?_⟩
  · obtain ⟨t, r⟩ := runsAt_of_undisturbed h k hk
    exact ⟨t, r.run, r.busy, r.done⟩
  · obtain ⟨t, ht, hbusy, hdone, -⟩ := completed_of_undisturbed h
    exact ⟨t, ht, hbusy, hdone, fun hr hl hv => ⟨_, (runFor_last ht).trans (step_accept hr hl hbusy hv), rfl, rfl⟩⟩

/-- Settles O45, by induction on the length of the runs. -/
theorem controlDoesNotDependOnSda : Obligations.ControlDoesNotDependOnSda := by
  intro n
  induction n with
  | zero =>
    intro s t s' t' h hs ht
    cases hs
    cases ht
    exact h
  | succ n ih =>
    intro s t s' t' h hs ht
    obtain ⟨s₁, hs₁, hs⟩ := runFor_succ_next hs
    obtain ⟨t₁, ht₁, ht⟩ := runFor_succ_next ht
    exact ih _ _ _ _ (step_keeps_sameButReadData h hs₁ ht₁) hs ht

/-- Settles O11: an engine that is not ready is in reset, which reads no other port, or runs a command, which reads SDA
alone. -/
theorem offerWhileNotReadyHasNoEffect : Obligations.OfferWhileNotReadyHasNoEffect := by
  refine ⟨fun _ => rfl, fun s p q ps hrst hsda hready => ?_⟩
  change step (s.withPorts p ps) = step (s.withPorts q ps)
  cases hp : p.rst with
  | true =>
    rw [step_reset (s := s.withPorts p ps) hp, step_reset (s := s.withPorts q ps) (hrst ▸ hp)]
    rfl
  | false =>
    have hb : s.busy = true := by simpa [State.cmdReady, State.input, hp] using hready
    exact step_withPorts_of_busy ps hb hp (hrst ▸ hp) hsda

/-- Settles O15: a micro-op does its own effect, and none but the closing wait completes. -/
theorem microOpEffects : Obligations.MicroOpEffects := by
  refine ⟨fun i s u hcur => ?_, fun i s hpast => ?_⟩
  · obtain ⟨rest, hd⟩ := drop_of_getElem? u hcur
    refine ⟨_, exec_of_drop s hd, ?_, ?_, ?_, ?_, fun x => ?_, ?_, ?_, edgeResult_of_ne_wait hd⟩ <;>
      (rintro rfl; simp [sclAfter, sdaAfter, shiftIn])
  · rw [exec_eq, runCommand_past _ s hpast]

/-- Settles O18: the micro-op with nothing after it is the closing wait, at its last cycle. -/
theorem completionEdge : Obligations.CompletionEdge :=
  ⟨fun _ _ hlen hw => ⟨_, exec_completes hlen hw, rfl, fun _ _ hp => by simp [State.cmdReady, State.input, hp]⟩,
    prog_getLast Config.params, isRead_decode_iff⟩

/-- Settles O25, from the frame all commands share, for none of the three has an `SMP` or returns a byte. -/
theorem startStopWriteFrame : Obligations.StartStopWriteFrame := by
  intro i s t hread h
  obtain ⟨hlcmd, hinputs, hcycle, hbusy, hscl, hwcnt⟩ := exec_frame h
  have hacc : t.acc = s.acc := by
    by_contra hne
    exact not_sample_of_not_read Config.params hread (List.mem_of_getElem? (exec_acc_ne h hne))
  exact ⟨hacc, exec_keeps_rdata h (.inl hread), hlcmd, hinputs, hcycle, hbusy, hscl, exec_sdaOe_ne h, hwcnt⟩

/-- Settles O26, from the frame all commands share, for no READ has a `DS`. -/
theorem readFrame : Obligations.ReadFrame := by
  intro i s t hread h
  obtain ⟨hlcmd, hinputs, hcycle, hbusy, hscl, hwcnt⟩ := exec_frame h
  refine ⟨hlcmd, hinputs, hcycle, fun hdone => ⟨exec_keeps_rdata h (.inr hdone), hbusy hdone⟩, exec_acc_ne h, hscl,
    fun hne => ?_, hwcnt⟩
  obtain hDL | hDR | ⟨x, hDS⟩ := exec_sdaOe_ne h hne
  · exact .inl hDL
  · exact .inr hDR
  · exact absurd (List.mem_of_getElem? hDS) (not_send_of_read Config.params hread x)

/-- Settles O33: an edge runs one micro-op at most, and a micro-op acts on one line at most. -/
theorem atMostOneLineChangesPerEdge : Obligations.AtMostOneLineChangesPerEdge := by
  intro s t h hr
  obtain ⟨hscl, -⟩ | ⟨u, -, -, hscl, hsda⟩ := step_lines h hr
  · exact .inl hscl
  · rw [hscl, hsda]
    exact sclAfter_or_sdaAfter u s.sclOe s.sdaOe

/-- Settles O34, by the kinds of edge. -/
theorem stepIsTheWholeStep : Obligations.StepIsTheWholeStep := by
  intro s t hpremise hwhole
  suffices h : ∃ v, step s = .next v.tick ∧ wholeStep Config.params s s.input = some v by
    obtain ⟨v, hv, hsome⟩ := h
    obtain rfl : v = t := Option.some.inj (hsome.symm.trans hwhole)
    exact ⟨v.tick, hv, engineOf_tick v⟩
  cases hr : s.input.rst with
  | true => exact ⟨_, step_reset hr, wholeStep_reset _ hr⟩
  | false =>
    have hl : s.lawful = true := hpremise.resolve_left (by simp [hr])
    cases hb : s.busy with
    | true =>
      obtain ⟨u, rest, hd⟩ := drop_of_wholeStep hr hb hwhole
      exact ⟨_, step_run hr hl hb hd, wholeStep_run hr hb hd⟩
    | false =>
      cases hv : s.input.cmdValid with
      | true => exact ⟨_, step_accept hr hl hb hv, wholeStep_accept _ hr hb hv⟩
      | false => exact ⟨_, step_idle hr hl hb hv, wholeStep_idle _ hr hb hv⟩

/-- Settles O37: the invariant holds along the run, and `done` is up while idle alone. -/
theorem sclReleasedWheneverIdle : Obligations.SclReleasedWheneverIdle := by
  refine ⟨rfl, fun n s t inv h hidle => ?_⟩
  have inv' : EngineInv t := runFor_keeps (fun _ _ => step_keeps_engineInv) inv h
  exact inv'.idle_scl (hidle.elim id inv'.done_idle)

/-- Settles O42: the level is the one the last SDA action of the sequence leaves. -/
theorem lineLevelsAtCompletion : Obligations.LineLevelsAtCompletion := by
  refine ⟨⟨rfl, rfl⟩, fun u v h hr hcur => ?_, fun w s h => ?_⟩
  · by_contra hne
    obtain ⟨hb, hact⟩ := (linesMoveOnlyByMicroOps u v h hr).2 hne
    obtain ⟨hDL, hDR, hDS⟩ := hcur hb
    obtain h' | h' | ⟨x, h'⟩ := hact
    · exact hDL h'
    · exact hDR h'
    · exact hDS x h'
  · obtain ⟨t, ht, -, -, -, hscl, hsda⟩ := completed_of_undisturbed h
    refine ⟨t, ht, hscl.trans (sclAlong_prog ..), hsda.trans ((sdaAlong_prog ..).trans ?_)⟩
    cases decode w <;> rfl

/-- Settles O6: a word placed from outside leaves the ports at rest and the engine busy with it. -/
theorem stepRunsLatchedCommand : Obligations.StepRunsLatchedCommand := by
  refine ⟨fun _ => step_exec, fun s nbits w i h => ⟨?_, rfl⟩⟩
  rw [step_exec (s := s.withFetchWord nbits w) rfl (withFetchWord_lawful nbits w) rfl, withFetchWord_running h]

/-- Settles O10: the acceptance writes the word and the counters, and the sequence is the new word's. -/
theorem acceptanceEdge : Obligations.AcceptanceEdge := fun _ hr hl hb hv =>
  ⟨_, step_accept hr hl hb hv, rfl, rfl, rfl, rfl, rfl, rfl, rfl, rfl, rfl, rfl⟩

end Sys2Proof.Machine
end

section
/-! The statements about the bus conditions (spec/41_bus_conditions.md): the whole next state at each kind of micro-op,
in any command, and from it START and STOP one edge at a time. -/

namespace Sys2Proof.Machine

open Sys2Proof.Safety

/-! ### The whole next state, by the micro-op at `upc` -/

section WholeEdge

variable {s : State} {i : Instr} {u : MicroOp} {n : BitVec 6}

/-- Any micro-op but a `W` acts on its line or the accumulator, and `upc` moves on (R52, R56). -/
theorem exec_of_ne_wait (hupc : s.upc = n) (hcur : (prog Config.params i)[n.toNat]? = some u) (hu : u ≠ .W) :
    exec i s = .next { s with
      sclOe := sclAfter s.sclOe u, sdaOe := sdaAfter s.sdaOe u,
      acc := if u = .SMP then shiftIn s.acc s.input.sdaIn else s.acc, upc := n + 1#6, done := false } := by
  subst hupc
  obtain ⟨rest, hd⟩ := drop_of_getElem? u hcur
  have hrest := rest_ne_nil_of_ne_wait hd hu
  rw [exec_of_drop s hd]
  refine congrArg _ (State.ext ?_ ?_ ?_ ?_ ?_ ?_ ?_ ?_ ?_ ?_ ?_) <;> simp [finishes_of_ne_wait hu, hrest, hu]

/-- A `W` that something follows waits one more cycle or gives way to it (R56). -/
theorem exec_of_wait (hupc : s.upc = n) (hcur : (prog Config.params i)[n.toNat]? = some .W)
    (hlen : n.toNat + 1 < (prog Config.params i).length) : exec i s = .next (waited s) := by
  subst hupc
  obtain ⟨rest, hd⟩ := drop_of_getElem? .W hcur
  have hrest : rest ≠ [] := List.ne_nil_of_length_pos (by have := (drop_eq_cons hd).2; omega)
  rw [exec_of_drop s hd]
  by_cases hw : s.wcnt + 1 < Config.params.delay <;>
    refine congrArg _ (State.ext ?_ ?_ ?_ ?_ ?_ ?_ ?_ ?_ ?_ ?_ ?_) <;>
    simp [waited, finishes_eq, hw, hrest, sclAfter, sdaAfter]

/-- From its last index on, a sequence is the closing wait alone (R57). -/
theorem drop_of_last {P : Params} {m : Nat} (h : m + 1 = (prog P i).length) : (prog P i).drop m = [.W] := by
  obtain ⟨u, rest, hd⟩ := drop_of_lt (us := prog P i) (n := m) (by omega)
  obtain rfl : rest = [] := List.eq_nil_of_length_eq_zero (by have := (drop_eq_cons hd).2; omega)
  rw [hd, last_is_wait hd]

/-- The closing `W` waits one more cycle or completes the command, and a READ then returns its byte (R57, R75). -/
theorem exec_of_closing_wait (hupc : s.upc = n) (hlen : n.toNat + 1 = (prog Config.params i).length) :
    exec i s = .next { waitedToEnd s with
      rdata := if s.wcnt + 1 < Config.params.delay then s.rdata else if i.isRead then s.acc else s.rdata } := by
  subst hupc
  rw [exec_of_drop s (drop_of_last hlen)]
  by_cases hw : s.wcnt + 1 < Config.params.delay <;>
    refine congrArg _ (State.ext ?_ ?_ ?_ ?_ ?_ ?_ ?_ ?_ ?_ ?_ ?_) <;>
    simp [waitedToEnd, finishes_eq, hw, sclAfter, sdaAfter]

@[simp] theorem waitedToEnd_rdata (s : State) : (waitedToEnd s).rdata = s.rdata := by
  unfold waitedToEnd
  split <;> rfl

/-- The closing `W` of a command that is no READ leaves `rdata` alone (R75). -/
theorem exec_of_closing_wait_of_not_read (hread : i.isRead = false) (hupc : s.upc = n)
    (hlen : n.toNat + 1 = (prog Config.params i).length) : exec i s = .next (waitedToEnd s) := by
  rw [exec_of_closing_wait hupc hlen]
  refine congrArg _ (State.ext rfl rfl ?_ rfl rfl rfl rfl rfl rfl rfl rfl)
  simp [hread]

end WholeEdge

/-! ### The obligations -/

/-- Settles O19, by the kind of each micro-op of `[CR, DL, W]`. -/
theorem startEdgeByEdge : Obligations.StartEdgeByEdge := fun _ =>
  ⟨fun h => exec_of_ne_wait (u := .CR) h rfl nofun,
    fun h => exec_of_ne_wait (u := .DL) h rfl nofun,
    fun h => exec_of_closing_wait_of_not_read rfl h rfl⟩

/-- Settles O20, by the kind of each micro-op of `[CL, DL, W, CR, W, DR, W]`. -/
theorem stopEdgeByEdge : Obligations.StopEdgeByEdge := fun _ =>
  ⟨fun h => exec_of_ne_wait (u := .CL) h rfl nofun,
    fun h => exec_of_ne_wait (u := .DL) h rfl nofun,
    fun h => exec_of_wait h rfl (show 3 < 7 by decide),
    fun h => exec_of_ne_wait (u := .CR) h rfl nofun,
    fun h => exec_of_wait h rfl (show 5 < 7 by decide),
    fun h => exec_of_ne_wait (u := .DR) h rfl nofun,
    fun h => exec_of_closing_wait_of_not_read rfl h rfl⟩

end Sys2Proof.Machine
end

section
/-! The statements about the byte transfers (spec/42_byte_transfer.md): the bit cells of WRITE and of the READs as
slices of their sequences, each edge of them whole, what an edge leaves in `rdata`, and the byte a READ returns. -/

namespace Sys2Proof.Machine

open Sys2Proof.Safety

/-! ### One edge inside a slice of a sequence -/

section Slice

variable {s : State} {i : Instr} {u : MicroOp} {us cell rest : List MicroOp} {m c : Nat}

/-- A slice's micro-ops, by their index in the sequence. -/
theorem getElem?_of_drop_append (hd : us.drop m = cell ++ rest) (hc : cell[c]? = some u) : us[m + c]? = some u := by
  obtain ⟨hlt, -⟩ := List.getElem?_eq_some_iff.mp hc
  rw [← List.getElem?_drop, hd, List.getElem?_append_left hlt, hc]

/-- A slice's micro-op that is no `W`: `exec_of_ne_wait` at its place in the slice. -/
theorem exec_in_slice_of_ne_wait (hd : (prog Config.params i).drop m = cell ++ rest) (hc : cell[c]? = some u)
    (hu : u ≠ .W) (hupc : s.upc.toNat = m + c) :
    exec i s = .next { s with
      sclOe := sclAfter s.sclOe u, sdaOe := sdaAfter s.sdaOe u,
      acc := if u = .SMP then shiftIn s.acc s.input.sdaIn else s.acc, upc := s.upc + 1#6, done := false } :=
  exec_of_ne_wait rfl (by rw [hupc, getElem?_of_drop_append hd hc]) hu

/-- A `W` of a slice that something follows is not the closing one. -/
theorem exec_in_slice_of_wait {v : MicroOp} (hd : (prog Config.params i).drop m = cell ++ v :: rest)
    (hc : cell[c]? = some .W) (hupc : s.upc.toNat = m + c) : exec i s = .next (waited s) := by
  have hlen := congrArg List.length hd
  rw [List.length_drop, List.length_append, List.length_cons] at hlen
  obtain ⟨hlt, -⟩ := List.getElem?_eq_some_iff.mp hc
  exact exec_of_wait rfl (by rw [hupc, getElem?_of_drop_append hd hc]) (by omega)

end Slice

/-! ### The slices of the transfers' sequences -/

section Cells

variable {i : Instr} {j : Nat}

/-- Either form of the acknowledge slot begins with `CL` (R69). -/
theorem writeAckSlot_eq_cons (release : Bool) : ∃ tail, writeAckSlot release = .CL :: tail := by
  cases release <;> exact ⟨_, rfl⟩

/-- WRITE's cell `j` is the slice from `5j` on; the next cell, or the acknowledge slot, begins with `CL` (R68, R69). -/
theorem drop_writeCell (P : Params) (b : Byte) (hj : j < 8) :
    ∃ rest, (prog P (.write b)).drop (5 * j) = writeCell (cellBit b j) ++ .CL :: rest := by
  obtain ⟨tail, hslot⟩ := writeAckSlot_eq_cons P.wackRelease
  rw [prog, writeProg, hslot]
  interval_cases j <;> exact ⟨_, rfl⟩

/-- After its eight cells WRITE's sequence is the acknowledge slot (R69). -/
theorem drop_writeAckSlot (P : Params) (b : Byte) :
    (prog P (.write b)).drop 40 = writeAckSlot P.wackRelease := rfl

theorem length_write (P : Params) (b : Byte) :
    (prog P (.write b)).length = 40 + (writeAckSlot P.wackRelease).length := List.length_append

/-- A READ's cell `j` is the slice from `5j + 2` on; the next cell, or the tail, begins with `CL` (R71 to R73). -/
theorem drop_readCell (P : Params) (h : i.isRead = true) (hj : j < 8) :
    ∃ rest, (prog P i).drop (5 * j + 2) = readCell ++ .CL :: rest := by
  cases i with
  | readNack => interval_cases j <;> exact ⟨_, rfl⟩
  | readAck => interval_cases j <;> exact ⟨_, rfl⟩
  | _ => cases h

end Cells

/-! ### The read data path -/

section ReadPath

variable {s t : State}

/-- What an edge leaves in `rdata`: a completing READ's accumulator, or what stood there (R75). -/
theorem step_rdata (h : step s = .next t) (hr : s.input.rst = false) :
    t.rdata = if completesNow s ∧ s.running.isRead = true then t.acc else s.rdata := by
  cases step_cases h with
  | reset hr' eq => rw [hr] at hr'; cases hr'
  | run _ hl hb u rest hd eq => simp [eq, completesNow_of_run hr hb hd]
  | accept _ hl hb hv eq => simp [eq, completesNow_of_idle hb]
  | idle _ hl hb hv eq => simp [eq, completesNow_of_idle hb]

/-- An engine that meets the invariant has both lines released where it samples (R71, I4). -/
theorem released_at_sample (inv : EngineInv s) (hb : s.busy = true) (hcur : s.current = some .SMP) :
    s.sclOe = false ∧ s.sdaOe = false := by
  obtain ⟨rest, hd⟩ := drop_of_current hcur
  obtain ⟨v, hv⟩ := inv.run_sda hb
  simpa [samplesReleased, ← inv.run_scl hb, ← hv] using
    everyOp_at (prog_samplesReleased Config.params s.running false v) hd

/-- Bit `7 - j` of an assembled byte is the sample of cell `j`, whatever the accumulator held (R76). -/
theorem assembleByte_getLsbD (a : Byte) (f : Nat → Bool) {j : Nat} (hj : j < 8) :
    (assembleByte a f).getLsbD (7 - j) = f j := by
  rw [assembleByte, foldl_shiftIn_getLsbD f a (by omega) (by omega)]
  congr 1
  omega

end ReadPath

/-! ### The obligations -/

/-- Settles O43: the byte is the one the samples assemble to, and eight samples leave nothing else in it. -/
theorem readReturnsSampledByte : Obligations.ReadReturnsSampledByte := by
  intro w s hread h
  obtain ⟨t, ht, hdone, hrdata⟩ := read_returns_assembled hread h
  refine ⟨t, ht, hdone, fun j hj => ?_, fun hones => ?_, fun hzeros => ?_⟩
  · rw [hrdata, assembleByte_getLsbD _ _ hj]
  · have hbits : ∀ j, j < 8 → (0xFF#8).getLsbD (7 - j) = true := by decide
    exact hrdata.trans (assembleByte_eq fun j hj => (hones j hj).trans (hbits j hj).symm)
  · exact hrdata.trans (assembleByte_eq fun j hj => (hzeros j hj).trans (BitVec.getLsbD_zero).symm)

/-- Settles O16: the accumulator's shift bit by bit, at a micro-op that never completes a command. -/
theorem sampleShiftsIntoBitZero : Obligations.SampleShiftsIntoBitZero := fun _ s hcur =>
  have hbits := shiftIn_bits s.acc s.input.sdaIn
  ⟨_, exec_of_ne_wait rfl hcur nofun, hbits.1, hbits.2, rfl, rfl⟩

/-- Settles O21, by the kind of each micro-op of the cell `[CL, DS, W, CR, W]`. -/
theorem writeCellEdgeByEdge : Obligations.WriteCellEdgeByEdge := by
  intro b s j hj
  obtain ⟨rest, hd⟩ := drop_writeCell Config.params b hj
  exact ⟨exec_in_slice_of_ne_wait (c := 0) (u := .CL) hd rfl nofun,
    exec_in_slice_of_ne_wait (c := 1) (u := .DS (cellBit b j)) hd rfl nofun,
    exec_in_slice_of_wait (c := 2) hd rfl,
    exec_in_slice_of_ne_wait (c := 3) (u := .CR) hd rfl nofun,
    exec_in_slice_of_wait (c := 4) hd rfl⟩

/-- Settles O22, by the kind of each micro-op of the slot's two forms. -/
theorem writeAckSlotEdgeByEdge : Obligations.WriteAckSlotEdgeByEdge := by
  intro b s
  have hlen := length_write Config.params b
  have hslot := drop_writeAckSlot Config.params b
  refine ⟨fun h => ?_, fun hrelease => ?_, fun hkeep => ?_⟩
  · obtain ⟨tail, hCL⟩ := writeAckSlot_eq_cons Config.params.wackRelease
    have hd : (prog Config.params (.write b)).drop 40 = [.CL] ++ tail := hslot.trans hCL
    exact exec_of_ne_wait (u := .CL) h (getElem?_of_drop_append (c := 0) hd rfl) nofun
  · rw [hrelease] at hlen hslot
    have hd : (prog Config.params (.write b)).drop 40 = [.CL, .DR, .W, .CR] ++ [.W] := hslot
    exact ⟨fun h => exec_of_ne_wait (u := .DR) h (getElem?_of_drop_append (c := 1) hd rfl) nofun,
      fun h => exec_in_slice_of_wait (c := 2) hd rfl (congrArg BitVec.toNat h),
      fun h => exec_of_ne_wait (u := .CR) h (getElem?_of_drop_append (c := 3) hd rfl) nofun,
      fun h => exec_of_closing_wait_of_not_read rfl h hlen.symm⟩
  · rw [hkeep] at hlen hslot
    have hd : (prog Config.params (.write b)).drop 40 = [.CL, .W, .CR] ++ [.W] := hslot
    exact ⟨fun h => exec_in_slice_of_wait (c := 1) hd rfl (congrArg BitVec.toNat h),
      fun h => exec_of_ne_wait (u := .CR) h (getElem?_of_drop_append (c := 2) hd rfl) nofun,
      fun h => exec_of_closing_wait_of_not_read rfl h hlen.symm⟩

/-- Settles O23, by the kind of each micro-op of the prologue and of the cell `[CL, W, CR, W, SMP]`. -/
theorem readBodyEdgeByEdge : Obligations.ReadBodyEdgeByEdge := by
  intro i s hi
  have hread : i.isRead = true := by rcases hi with rfl | rfl <;> rfl
  obtain ⟨tail, hprologue⟩ : ∃ tail, (prog Config.params i).drop 0 = [.CL, .DR] ++ tail := by
    rcases hi with rfl | rfl <;> exact ⟨_, rfl⟩
  refine ⟨fun h => exec_of_ne_wait (u := .CL) h (getElem?_of_drop_append (c := 0) hprologue rfl) nofun,
    fun h => exec_of_ne_wait (u := .DR) h (getElem?_of_drop_append (c := 1) hprologue rfl) nofun, fun j hj => ?_⟩
  obtain ⟨rest, hd⟩ := drop_readCell Config.params hread hj
  exact ⟨exec_in_slice_of_ne_wait (c := 0) (u := .CL) hd rfl nofun,
    exec_in_slice_of_wait (c := 1) hd rfl,
    exec_in_slice_of_ne_wait (c := 2) (u := .CR) hd rfl nofun,
    exec_in_slice_of_wait (c := 3) hd rfl,
    exec_in_slice_of_ne_wait (c := 4) (u := .SMP) hd rfl nofun⟩

/-- Settles O24, by the kind of each micro-op of `[CL, DL, W, CR, W]` and of `[CL, W, CR, W]`. -/
theorem readTailsEdgeByEdge : Obligations.ReadTailsEdgeByEdge := fun _ =>
  ⟨fun h => exec_of_ne_wait (u := .CL) h rfl nofun,
    fun h => exec_of_ne_wait (u := .DL) h rfl nofun,
    fun h => exec_of_wait h rfl (show 45 < 47 by decide),
    fun h => exec_of_ne_wait (u := .CR) h rfl nofun,
    fun h => exec_of_closing_wait h rfl,
    fun h => exec_of_ne_wait (u := .CL) h rfl nofun,
    fun h => exec_of_wait h rfl (show 44 < 46 by decide),
    fun h => exec_of_ne_wait (u := .CR) h rfl nofun,
    fun h => exec_of_closing_wait h rfl⟩

/-- Settles O29, from what a step leaves in `rdata`. -/
theorem rdataWrittenOnlyByReadCompletion : Obligations.RdataWrittenOnlyByReadCompletion := fun _ _ => step_rdata

/-- Settles O39: the micro-ops already run have released both lines before every `SMP`. -/
theorem sampleOnlyWithBothLinesReleased : Obligations.SampleOnlyWithBothLinesReleased := fun _ inv hb hcur =>
  (released_at_sample inv hb hcur).symm

end Sys2Proof.Machine
end

section
/-! The statement about the idle edge (spec/60_exceptions.md R80, R87), at which nothing runs and nothing is offered. -/

namespace Sys2Proof.Machine

/-- Settles O12: an idle edge clears `done` and lets a cycle pass, which the engine's elements do not see. -/
theorem idleEdgeChangesOnlyDone : Obligations.IdleEdgeChangesOnlyDone := fun s hr hl hb hv =>
  ⟨s.clearDone.tick, step_idle hr hl hb hv, engineOf_tick s.clearDone⟩

end Sys2Proof.Machine
end

section
/-! The statements about reset and about timing (spec/70_reset_and_hazards.md R88 to R90, R99 to R101): what edges in
reset leave, the lines along a bit cell edge by edge, and the latency and frequency that follow. -/

namespace Sys2Proof.Machine

open Sys2Proof.Safety

/-! ### Edges in reset -/

section Reset

variable {s t : State} {n : Nat}

/-- The edge after a run of `n` steps reads the ports scheduled `n` edges from the run's start. -/
theorem rst_after_run (h : runFor n s = .next t) : t.input.rst = (s.scheduled n).rst := by
  rw [input_rst, runFor_scheduled h, Nat.zero_add]

/-- Edges in reset never stop the engine, the law's break included (R88). -/
theorem runFor_answers_in_reset (h : ∀ k, k < n → (s.scheduled k).rst = true) : ∃ t, runFor n s = .next t := by
  induction n with
  | zero => exact ⟨s, runFor_zero s⟩
  | succ n ih =>
    obtain ⟨t, ht⟩ := ih fun k hk => h k (Nat.lt_succ_of_lt hk)
    have hr : t.input.rst = true := (rst_after_run ht).trans (h n n.lt_succ_self)
    exact ⟨_, (runFor_last ht).trans (step_reset hr)⟩

/-- What the last of one or more edges in reset leaves is what one reset edge leaves (R90). -/
theorem runFor_in_reset (h : ∀ k, k ≤ n → (s.scheduled k).rst = true) :
    ∃ t : State, runFor (n + 1) s = .next t.resetEdge.tick := by
  obtain ⟨t, ht⟩ := runFor_answers_in_reset fun k (hk : k < n) => h k hk.le
  exact ⟨t, (runFor_last ht).trans (step_reset ((rst_after_run ht).trans (h n le_rfl)))⟩

/-- The edge after a reset edge accepts the word offered to it: the reset has released SDA, so the law holds (R90). -/
theorem step_accepts_after_reset (hr : t.resetEdge.tick.input.rst = false)
    (hv : t.resetEdge.tick.input.cmdValid = true) :
    step t.resetEdge.tick = .next t.resetEdge.tick.accept.tick :=
  step_accept hr (lawful_of_released _ rfl) rfl hv

end Reset

/-! ### A bit cell edge by edge -/

section Cell

variable (P : Params) {f : Bool → MicroOp → Bool}

/-- The level of a line on which a micro-op acts as `f`, after each edge of a sequence that finds it at `v`. -/
def lineTrace (f : Bool → MicroOp → Bool) (v : Bool) : List MicroOp → List Bool
  | [] => []
  | u :: us => f v u :: lineTrace f (f v u) us

theorem sclTrace_eq_lineTrace (v : Bool) (us : List MicroOp) : sclTrace v us = lineTrace sclAfter v us := by
  induction us generalizing v with
  | nil => rfl
  | cons u us ih => rw [sclTrace, lineTrace, ih]

theorem sdaTrace_eq_lineTrace (v : Bool) (us : List MicroOp) : sdaTrace v us = lineTrace sdaAfter v us := by
  induction us generalizing v with
  | nil => rfl
  | cons u us ih => rw [sdaTrace, lineTrace, ih]

/-- Repetitions of a micro-op that leaves the line are as many cycles at its level. -/
theorem lineTrace_replicate_append {v : Bool} {u : MicroOp} (h : f v u = v) (n : Nat) (us : List MicroOp) :
    lineTrace f v (List.replicate n u ++ us) = List.replicate n v ++ lineTrace f v us := by
  induction n with
  | zero => rfl
  | succ n ih => rw [List.replicate_succ, List.cons_append, lineTrace, h, ih, List.replicate_succ, List.cons_append]

/-- A line holds the level a micro-op takes it to for every edge of that micro-op: one edge, but for a wait, which moves
no line (R52). -/
theorem lineTrace_edgesOf_cons (hW : ∀ v, f v .W = v) (v : Bool) (u : MicroOp) (us : List MicroOp) :
    lineTrace f v (edgesOf P (u :: us)) =
      List.replicate (u.edges P) (f v u) ++ lineTrace f (f v u) (edgesOf P us) := by
  rw [edgesOf_cons]
  cases u with
  | W => rw [lineTrace_replicate_append (hW v), hW]
  | _ => rfl

theorem sclTrace_edgesOf_cons (v : Bool) (u : MicroOp) (us : List MicroOp) :
    sclTrace v (edgesOf P (u :: us)) =
      List.replicate (u.edges P) (sclAfter v u) ++ sclTrace (sclAfter v u) (edgesOf P us) := by
  simpa only [sclTrace_eq_lineTrace] using lineTrace_edgesOf_cons P (fun _ => rfl) v u us

theorem sdaTrace_edgesOf_cons (v : Bool) (u : MicroOp) (us : List MicroOp) :
    sdaTrace v (edgesOf P (u :: us)) =
      List.replicate (u.edges P) (sdaAfter v u) ++ sdaTrace (sdaAfter v u) (edgesOf P us) := by
  simpa only [sdaTrace_eq_lineTrace] using lineTrace_edgesOf_cons P (fun _ => rfl) v u us

/-- SCL in a WRITE's data cell: low through `CL`, `DS` and a wait, high through `CR` and a wait (R68, R99). -/
theorem sclTrace_writeCell (x c : Bool) :
    sclTrace c (edgesOf P (writeCell x)) =
      List.replicate (P.delay + 2) true ++ List.replicate (P.delay + 1) false := by
  have hlow : P.delay + 2 = 1 + (1 + P.delay) := by omega
  simp only [writeCell, sclTrace_edgesOf_cons, sclAfter, MicroOp.edges, edgesOf_nil, sclTrace, hlow,
    Nat.add_comm P.delay 1, List.replicate_add, List.append_assoc, List.append_nil]

/-- SDA in a WRITE's data cell: untouched by `CL`, at the bit's level from `DS` on (R68, R99). -/
theorem sdaTrace_writeCell (x d : Bool) :
    sdaTrace d (edgesOf P (writeCell x)) = d :: List.replicate (2 * P.delay + 2) (!x) := by
  have hheld : 2 * P.delay + 2 = 1 + (P.delay + (1 + P.delay)) := by omega
  simp only [writeCell, sdaTrace_edgesOf_cons, sdaAfter, MicroOp.edges, edgesOf_nil, sdaTrace, hheld,
    List.replicate_add, List.append_nil]
  rfl

/-- SCL in a READ's cell: low through `CL` and a wait, high through `CR`, a wait and `SMP` (R71, R99). -/
theorem sclTrace_readCell (c : Bool) :
    sclTrace c (edgesOf P readCell) = List.replicate (P.delay + 1) true ++ List.replicate (P.delay + 2) false := by
  have hhigh : P.delay + 2 = 1 + P.delay + 1 := by omega
  simp only [readCell, sclTrace_edgesOf_cons, sclAfter, MicroOp.edges, edgesOf_nil, sclTrace, hhigh,
    Nat.add_comm P.delay 1, List.replicate_add, List.append_assoc, List.append_nil]

end Cell

/-! ### Latency and frequency -/

section Rate

variable (P : Params)

theorem latency_append (is js : List Instr) : latency P (is ++ js) = latency P is + latency P js := by
  simp [latency]

theorem latency_nil : latency P [] = 0 := rfl

theorem latency_cons (i : Instr) (is : List Instr) : latency P (i :: is) = duration P i + 1 + latency P is := by
  simp [latency]

/-- The bit period is positive, whatever the build. -/
theorem bitPeriod_cast_ne_zero : (bitPeriod P : Rat) ≠ 0 := Nat.cast_ne_zero.mpr (by unfold bitPeriod; omega)

theorem bitPeriod_cast : (bitPeriod P : Rat) = 3 + 2 * P.delay := by simp [bitPeriod]

theorem length_edgesOf_writeCell (x : Bool) : (edgesOf P (writeCell x)).length = bitPeriod P :=
  (edgesOf_length ..).trans (lengthInEdges_writeCell P x)

theorem length_edgesOf_readCell : (edgesOf P readCell).length = bitPeriod P :=
  (edgesOf_length ..).trans (lengthInEdges_readCell P)

theorem sclFrequency_mul_bitPeriod (f : Rat) : sclFrequency P f * bitPeriod P = f :=
  div_mul_cancel₀ f (bitPeriod_cast_ne_zero P)

/-- The clock divided by the SCL frequency is the bit period again. -/
theorem div_sclFrequency {f : Rat} (h : f ≠ 0) : f / sclFrequency P f = bitPeriod P := div_div_cancel₀ h

end Rate

/-! ### The obligations -/

/-- Settles O8: the last edge in reset leaves the reset state, and the edge after it finds an idle engine. -/
theorem heldResetKeepsResetState : Obligations.HeldResetKeepsResetState := by
  intro n s h
  obtain ⟨t, ht⟩ := runFor_in_reset h
  have hports : t.resetEdge.tick.scheduled 0 = s.scheduled (n + 1) := by
    rw [runFor_scheduled ht, Nat.zero_add]
  refine ⟨_, ht, rfl, fun hr hv => ⟨t.resetEdge.tick.accept.tick, ?_, rfl, ?_, rfl⟩⟩
  · rw [runFor_last ht]
    exact step_accepts_after_reset (by rw [input_rst, hports, hr]) (by rw [input_cmdValid, hports, hv])
  · rw [tick_lcmd, accept_lcmd, input_cmd, hports]

/-- Settles O50, from the lines along the two cells and the cells' lengths. -/
theorem bitCellTiming : Obligations.BitCellTiming := fun P x c d =>
  ⟨sclTrace_writeCell P x c, sdaTrace_writeCell P x d, sclTrace_readCell P c, lengthInEdges_writeCell P x,
    lengthInEdges_readCell P, rfl⟩

/-- Settles O54: a cell's edges are the bit period, which the exact quotient cancels. -/
theorem sclFrequencyIsClockOverBitPeriod : Obligations.SclFrequencyIsClockOverBitPeriod := by
  refine ⟨fun P x f => ⟨?_, ?_, ?_⟩, fun P f hf => ?_, fun P hP => ?_⟩
  · rw [length_edgesOf_writeCell, sclFrequency_mul_bitPeriod]
  · rw [length_edgesOf_readCell, sclFrequency_mul_bitPeriod]
  · rw [sclFrequency, bitPeriod_cast]
  · rw [delayForFrequency, div_sclFrequency P hf.ne', bitPeriod_cast]
    ring
  · have hperiod : bitPeriod P = 79 := by rw [bitPeriod, hP]
    refine ⟨hperiod, ?_⟩
    rw [sclFrequency, hperiod, abs_lt]
    norm_num

/-- Settles O9: a reset edge answers whatever ran, and the lines it finds and the released lines it leaves decide what
is seen of it. -/
theorem resetAbandonsRunningCommand : Obligations.ResetAbandonsRunningCommand := fun s _ hr =>
  ⟨_, step_reset hr, rfl, rfl, rfl, rfl, rfl, fun hscl hsda => by simp [drivesStop, hscl, hsda],
    fun hscl hsda => by simp [busCondition, bothReleased, hscl, hsda]⟩

/-- Settles O52, from R60's durations. -/
theorem transactionLatency : Obligations.TransactionLatency := by
  refine ⟨latency_append, fun P i => latency_cons P i [], fun P K hi lo hrelease => ?_⟩
  simp only [Pseudo.expand, latency_cons, latency_nil, duration_start, duration_stop, duration_write, hrelease, if_true]
  omega

end Sys2Proof.Machine
end
